-- ==== Sys2Proof/Word.lean ====
section
/-! DEFINITION. The word types of the FlashRAM core (00_scope.md R6; 92_eei_decisions.md D13). -/

namespace Sys2Proof

/-- An address, offset, length, value or mask: 32 bits, unsigned (D13). -/
abbrev Word := BitVec 32

/-- The unit of every buffer access (20_memory.md R37, R39). -/
abbrev Byte := BitVec 8

/-- The status latch: 64 bits (10_state.md R22). -/
abbrev Latch := BitVec 64

/-- A transaction tag: 4 bits (30_encoding.md R73). -/
abbrev Tag := BitVec 4

end Sys2Proof
end

