-- ==== Sys2Proof/Syntax.lean ====
section
/-! DEFINITION. The operations of the FlashRAM core: the seven command words of 30_encoding.md R62 and the nine
port transactions of 00_scope.md R2, one constructor for each row of opcode_table.json; and the packet in
which the host hands a transaction to the block. -/

namespace Sys2Proof

/-- One row of opcode_table.json a constructor. The ignored bits of a command word (30_encoding.md R65) and the
unused operands of a transaction are no part of the operation. A storage handle, or the buffer it gives, is a
number that names it (log 9). -/
inductive Instr where
  /-- ERASE_SETUP, 40_commands.md R83. -/
  | eraseSetup (page : BitVec 16)
  /-- ERASE_MODE, R84. -/
  | eraseMode
  /-- ERASE_OFFSET, R85. -/
  | eraseOffset (page : BitVec 16)
  /-- WRITE_MODE, R86. -/
  | writeMode
  /-- EXECUTE, R87. -/
  | execute
  /-- STATUS_MODE, R94. -/
  | statusMode
  /-- READ_MODE, R95. -/
  | readMode
  /-- REG_READ_STATUS, 41_register_access.md R99. -/
  | regReadStatus (address : Word)
  /-- REG_WRITE_STATUS, R100. -/
  | regWriteStatus (address value mask : Word)
  /-- REG_READ_COMMAND, R101. -/
  | regReadCommand (address : Word)
  /-- REG_WRITE_COMMAND, R102. -/
  | regWriteCommand (address value mask : Word)
  /-- DMA_TO_RAM, 42_dma.md R106. -/
  | dmaToRam (ramAddr flashAddr length : Word)
  /-- DMA_FROM_RAM, R110. -/
  | dmaFromRam (ramAddr flashAddr length : Word)
  /-- INITIALIZE, 70_reset_and_hazards.md R133. -/
  | initializeStorage (handle : Nat)
  /-- POWER_ON, R134. -/
  | powerOn
  /-- FORMAT, R136. -/
  | format (buffer : Nat)
  deriving DecidableEq, Repr

/-- A transaction as the host hands it over: the tag of 30_encoding.md R73 and three operand lanes of 32 bits, in
the order in which R73 lists the operands. A transaction with fewer operands ignores the lanes it does not
use (log 2). -/
structure Packet where
  tag : Tag
  lane0 : Word
  lane1 : Word
  lane2 : Word
  deriving DecidableEq, Repr

end Sys2Proof
end

