-- ==== Sys2Proof/WellFormed.lean ====
section
/-! DEFINITION. Which instructions and packets are well formed. Every bit field of an operand has its width in
its type; what is left to check is that the number of a storage handle or buffer fits its operand lane, and
that a packet has a tag of 30_encoding.md R73 and zeros in the lanes it does not use. -/

namespace Sys2Proof

/-- A handle's number fits the 32-bit lane that carries it (log 9). -/
def handleFits (h : Nat) : Bool := decide (h < 2 ^ 32)

/-- An instruction an encoding can carry. -/
def Instr.wf : Instr → Bool
  | .eraseSetup _ => true
  | .eraseMode => true
  | .eraseOffset _ => true
  | .writeMode => true
  | .execute => true
  | .statusMode => true
  | .readMode => true
  | .regReadStatus _ => true
  | .regWriteStatus _ _ _ => true
  | .regReadCommand _ => true
  | .regWriteCommand _ _ _ => true
  | .dmaToRam _ _ _ => true
  | .dmaFromRam _ _ _ => true
  | .initializeStorage h => handleFits h
  | .powerOn => true
  | .format b => handleFits b

/-- How many operand lanes the transaction of a tag uses; none for the tags 9 to 15, which are no transaction
(30_encoding.md R73). -/
def lanesOf (t : Tag) : Option Nat :=
  match t.toNat with
  | 0 => some 1
  | 1 => some 3
  | 2 => some 1
  | 3 => some 3
  | 4 => some 3
  | 5 => some 3
  | 6 => some 1
  | 7 => some 0
  | 8 => some 1
  | _ => none

/-- The one packet of its transaction: the tag is assigned and every unused lane is zero. -/
def Packet.wf (p : Packet) : Bool :=
  match lanesOf p.tag with
  | none => false
  | some n =>
    (decide (0 < n) || p.lane0 == 0) && (decide (1 < n) || p.lane1 == 0) && (decide (2 < n) || p.lane2 == 0)

end Sys2Proof
end

