-- ==== Sys2Proof/Decode.lean ====
section
/-! DEFINITION. The decoder of command words and of transaction packets, total, and after it the encoder, both
written from 30_encoding.md. -/

namespace Sys2Proof

/-! ## The command word (30_encoding.md R61, R62) -/

/-- `opcode = command[31:24]` (R61). -/
def opcodeOf (command : Word) : BitVec 8 := command.extractLsb' 24 8

/-- `page = command[15:0]` (R61, R64). -/
def pageOf (command : Word) : BitVec 16 := command.extractLsb' 0 16

/-- The seven opcode bytes of R62, decided by D3. Log 14. -/
def opcEraseSetup : BitVec 8 := 0x4B#8
def opcEraseMode : BitVec 8 := 0x78#8
def opcEraseOffset : BitVec 8 := 0xA5#8
def opcWriteMode : BitVec 8 := 0xB4#8
def opcExecute : BitVec 8 := 0xD2#8
def opcStatusMode : BitVec 8 := 0xE1#8
def opcReadMode : BitVec 8 := 0xF0#8

/-- The command decoder: the opcode byte alone selects the command (R63); `none` is the unrecognized space of
R66. -/
def decodeCommand (command : Word) : Option Instr :=
  if opcodeOf command = opcEraseSetup then some (.eraseSetup (pageOf command))
  else if opcodeOf command = opcEraseMode then some .eraseMode
  else if opcodeOf command = opcEraseOffset then some (.eraseOffset (pageOf command))
  else if opcodeOf command = opcWriteMode then some .writeMode
  else if opcodeOf command = opcExecute then some .execute
  else if opcodeOf command = opcStatusMode then some .statusMode
  else if opcodeOf command = opcReadMode then some .readMode
  else none

/-! ## The transaction packet (30_encoding.md R73) -/

/-- The transaction decoder: the tag selects the transaction; `none` is the tags 9 to 15. -/
def decodePacket (p : Packet) : Option Instr :=
  match p.tag.toNat with
  | 0 => some (.regReadStatus p.lane0)
  | 1 => some (.regWriteStatus p.lane0 p.lane1 p.lane2)
  | 2 => some (.regReadCommand p.lane0)
  | 3 => some (.regWriteCommand p.lane0 p.lane1 p.lane2)
  | 4 => some (.dmaToRam p.lane0 p.lane1 p.lane2)
  | 5 => some (.dmaFromRam p.lane0 p.lane1 p.lane2)
  | 6 => some (.initializeStorage p.lane0.toNat)
  | 7 => some .powerOn
  | 8 => some (.format p.lane0.toNat)
  | _ => none

/-! ## Both together -/

/-- What the two decoders read: a command word, or a packet. -/
inductive Code where
  | command (w : Word)
  | packet (p : Packet)
  deriving DecidableEq, Repr

/-- Why a code is no instruction. -/
inductive Rejection where
  /-- An opcode outside the seven (30_encoding.md R66). -/
  | unrecognizedCommand (command : Word)
  /-- A tag that is no transaction (30_encoding.md R73). -/
  | refusedTag (tag : Tag)
  deriving DecidableEq, Repr

/-- An instruction, or the name of the reason why the code is none. -/
inductive Decoded where
  | instr (i : Instr)
  | rejected (r : Rejection)
  deriving DecidableEq, Repr

/-- The decoder of every code. -/
def decode : Code → Decoded
  | .command w =>
    match decodeCommand w with
    | some i => .instr i
    | none => .rejected (.unrecognizedCommand w)
  | .packet p =>
    match decodePacket p with
    | some i => .instr i
    | none => .rejected (.refusedTag p.tag)

/-! ## The encoder -/

/-- A command word: the opcode in bits [31:24], zeros in the ignored bits [23:16], the page in bits [15:0]. -/
def commandWord (opcode : BitVec 8) (page : BitVec 16) : Word := opcode ++ (0#8 ++ page)

/-- A packet of a tag and its operands. -/
def packetOf (tag : Nat) (a b c : Word) : Code := .packet ⟨BitVec.ofNat 4 tag, a, b, c⟩

/-- The code of an instruction: a command word for the seven commands (30_encoding.md R62), a packet for the nine
transactions (R73). -/
def encode : Instr → Code
  | .eraseSetup page => .command (commandWord opcEraseSetup page)
  | .eraseMode => .command (commandWord opcEraseMode 0)
  | .eraseOffset page => .command (commandWord opcEraseOffset page)
  | .writeMode => .command (commandWord opcWriteMode 0)
  | .execute => .command (commandWord opcExecute 0)
  | .statusMode => .command (commandWord opcStatusMode 0)
  | .readMode => .command (commandWord opcReadMode 0)
  | .regReadStatus a => packetOf 0 a 0 0
  | .regWriteStatus a v m => packetOf 1 a v m
  | .regReadCommand a => packetOf 2 a 0 0
  | .regWriteCommand a v m => packetOf 3 a v m
  | .dmaToRam r f l => packetOf 4 r f l
  | .dmaFromRam r f l => packetOf 5 r f l
  | .initializeStorage h => packetOf 6 (BitVec.ofNat 32 h) 0 0
  | .powerOn => packetOf 7 0 0 0
  | .format b => packetOf 8 (BitVec.ofNat 32 b) 0 0

/-- The one code of its instruction: in a command word the bits the command ignores are zero (30_encoding.md
R65); a packet is well formed. -/
def Code.canonical : Code → Bool
  | .command w =>
    match decodeCommand w with
    | some (.eraseSetup _) => w.extractLsb' 16 8 == 0
    | some (.eraseOffset _) => w.extractLsb' 16 8 == 0
    | some _ => w.extractLsb' 0 24 == 0
    | none => false
  | .packet p => p.wf

/-! ## How a code stands at the block's port -/

/-- The address at which the model delivers a bare command word. Any address whose low 16 bits are zero reaches
the decoder (41_register_access.md R98); this is the spec's example address (30_encoding.md R74). Log 3. -/
def commandAddress : Word := 0x08010000#32

/-- The transaction that delivers a code: a command word is delivered by the `wr.cmd` of 30_encoding.md R75 (a
command register write with the default mask), a packet is itself. Log 3. -/
def Code.delivery : Code → Packet
  | .command w => ⟨3#4, commandAddress, w, 0xFFFFFFFF#32⟩
  | .packet p => p

/-- The code whose bits are `w` under the numbering of opcode_table.json: 32 bits are a command word; otherwise
bits [3:0] are the tag and the operand lanes follow it, 32 bits each. Log 2. -/
def Code.ofTable (nbits w : Nat) : Code :=
  if nbits = 32 then .command (BitVec.ofNat 32 w)
  else .packet ⟨BitVec.ofNat 4 w, BitVec.ofNat 32 (w / 2 ^ 4), BitVec.ofNat 32 (w / 2 ^ 36), BitVec.ofNat 32 (w / 2 ^ 68)⟩

/-- The instruction the decoder reads from a row of opcode_table.json. -/
def decodeTableWord (nbits w : Nat) : Option Instr :=
  match decode (Code.ofTable nbits w) with
  | .instr i => some i
  | .rejected _ => none

end Sys2Proof
end

