-- ==== Sys2Proof/Config.lean ====
section
/-! DEFINITION. The parameters of 00_scope.md R3 that the source fixes, and those the spec leaves open.
An open value is an opaque constant: no proof can learn what it is (60_exceptions.md R122). The values the
spec decides (opcodes, status constants, swap mask, STATUS_DMA_BASE) stand in Decode.lean and
Machine/Params.lean. -/

namespace Sys2Proof

/-- The two readings of a Status-mode DMA to an unaligned address (92_eei_decisions.md D12). -/
inductive StatusDmaBase where
  | literal
  | wordTruncate
  deriving DecidableEq, Repr

/-- `FLASHRAM_SIZE`, the bytes of a backing buffer (R3; 20_memory.md R36). -/
def Config.flashramSize : Nat := 0x20000

/-- `PAGE_SIZE`, the bytes erased or programmed by one execute (R3). -/
def Config.pageSize : Nat := 128

/-- `PAGE_COUNT` (R3). -/
def Config.pageCount : Nat := 1024

/-- `DMA_COST`, returned by every DMA transaction; OPEN (42_dma.md R105, D6). Log 13. -/
opaque Config.dmaCost : Word

/-- The free draws of invalid status reads: the value of the n-th draw (41_register_access.md R99, D9). Log 12. -/
opaque Config.statusReadDraw : Nat → Word

/-- The number of `mode` before the first POWER_ON; any number (70_reset_and_hazards.md R132). Log 10. -/
opaque Config.coldModeCode : Nat

/-- `status` before the first POWER_ON (70_reset_and_hazards.md R132). Log 10. -/
opaque Config.coldStatus : Latch

/-- `erase_offset` before the first POWER_ON (70_reset_and_hazards.md R132). Log 10. -/
opaque Config.coldEraseOffset : Word

/-- `write_pointer` before the first POWER_ON (70_reset_and_hazards.md R132). Log 10. -/
opaque Config.coldWritePointer : Word

end Sys2Proof
end

