-- ==== Sys2Proof/Machine/State.lean ====
section
/-! DEFINITION. The state of the FlashRAM core (10_state.md R16), the two buffers (20_memory.md R36, R38), the
outputs (10_state.md R34), the host's port, the state after reset, and the reasons a step can stop. -/

namespace Sys2Proof.Machine

/-- The operating mode: the five values of 10_state.md R20, and any other mode number a state before the first
POWER_ON may hold (40_commands.md R93; 70_reset_and_hazards.md R132). `unknown n` is the number `n + 5`. Log 11. -/
inductive Mode where
  | idle
  | erase
  | write
  | read
  | status
  | unknown (n : Nat)
  deriving DecidableEq, Repr

/-- The storage binding (10_state.md R28). A handle is a number that names the buffer it gives. Log 9. -/
inductive Binding where
  | unbound
  | bound (handle : Nat)
  deriving DecidableEq, Repr

/-- The two byte buffers (20_memory.md R36, R38). -/
inductive Buffer where
  | store
  | ram
  deriving DecidableEq, Repr

/-- The operation that raises a model fault (60_exceptions.md R123). -/
inductive Site where
  | execute
  | dmaToRam
  deriving DecidableEq, Repr

/-- A diagnostic with the information it records (60_exceptions.md R115). -/
inductive Diag where
  /-- `D_UNKNOWN_COMMAND`. -/
  | unknownCommand (command : Word)
  /-- `D_BAD_STATUS_READ_ADDR`. -/
  | badStatusReadAddr (address : Word)
  /-- `D_BAD_COMMAND_WRITE_ADDR`. -/
  | badCommandWriteAddr (address : Word)
  /-- `D_DMA_TO_RAM_MODE`. -/
  | dmaToRamMode (mode : Mode)
  /-- `D_DMA_FROM_RAM_MODE`. -/
  | dmaFromRamMode (mode : Mode)
  /-- `D_EXEC_UNKNOWN_MODE`. -/
  | execUnknownMode (mode : Mode)
  deriving DecidableEq, Repr

/-- An entry of the event history (10_state.md R34). -/
inductive Event where
  /-- `emit Save` (20_memory.md R40). -/
  | save
  /-- `emit Diag(code, info)` (60_exceptions.md R114). -/
  | diag (d : Diag)
  deriving DecidableEq, Repr

/-- A byte memory in canonical form: addresses strictly rising, no entry equal to what an unlisted address reads
as (Machine/Memory.lean). -/
abbrev Memory := List Host.Cell

/-- Everything the spec gives the block, its buffers and its outputs, and the port of the host. -/
structure State where
  /-- 10_state.md R20. -/
  mode : Mode
  /-- The status latch, 10_state.md R22. -/
  status : Latch
  /-- 10_state.md R24. -/
  eraseOffset : Word
  /-- 10_state.md R26. -/
  writePointer : Word
  /-- 10_state.md R28. -/
  storage : Binding
  /-- The backing buffers of all handles (20_memory.md R36); byte p of the buffer of handle h has the address
  h * FLASHRAM_SIZE + p. Log 9. -/
  store : Memory
  /-- The bytes of the RAM buffer, by physical index (20_memory.md R38). -/
  ram : Memory
  /-- `RAM_SIZE` (20_memory.md R38). Log 6. -/
  ramSize : Nat
  /-- The event history, oldest first (10_state.md R34). -/
  events : List Event
  /-- The value the last transaction returned to the host, if it returns one (10_state.md R34). Log 16. -/
  returned : Option Word
  /-- The transactions the host has issued and the block has not taken, oldest first (00_scope.md R1). Log 1. -/
  port : List Packet
  /-- MODEL's OWN: how many free values have been drawn (60_exceptions.md R122). Log 12. -/
  draws : Nat
  deriving DecidableEq, Repr

/-- The state right after POWER_ON (70_reset_and_hazards.md R134), storage not yet bound (R132). The last seven
fields are the model's choices: log 1, 6, 7, 8, 12, 16, 17. -/
def State.reset : State where
  mode := .idle
  status := 0#64
  eraseOffset := 0#32
  writePointer := 0#32
  storage := .unbound
  store := []
  ram := []
  ramSize := 0x400000
  events := []
  returned := none
  port := []
  draws := 0

/-- The model faults of 60_exceptions.md R123. Each is safe: the spec gives the case no meaning and the model
stops. -/
inductive Fault where
  /-- Storage touched while unbound; raised by EXECUTE in Erase or Write mode and by a Read-mode DMA_TO_RAM (R123).
  Safe. -/
  | unbound (site : Site)
  /-- A logical index outside its buffer; raised by EXECUTE in Erase or Write mode and by DMA_TO_RAM in Read or
  Status mode (R123). Safe. -/
  | outOfRange (buffer : Buffer) (index : Nat) (site : Site)
  /-- A transaction tag 9 to 15; raised by the step when it takes such a packet (R123, 30_encoding.md R73). Safe. -/
  | refusedTag (tag : Tag)
  deriving DecidableEq, Repr

/-- Refusals of the model. -/
inductive Refusal where
  /-- An instruction without a meaning; no arm raises it, since every instruction has one. Safe. -/
  | notModelled (mnemonic : String)
  deriving DecidableEq, Repr

/-- The answer of a meaning. -/
abbrev Result := Host.Outcome State Fault Refusal

end Sys2Proof.Machine
end

