-- ==== Sys2Proof/Machine/Flags.lean ====
section
/-! DEFINITION. The block has no flags or condition codes; `mode` is its only condition (10_state.md R19). Here are
the mode's numbers, which modes the spec names, and the numbers of the diagnostics. -/

namespace Sys2Proof.Machine

/-- The number of a mode (10_state.md R20; 30_encoding.md R72; D14). -/
def Mode.code : Mode → Nat
  | .idle => 0
  | .erase => 1
  | .write => 2
  | .read => 3
  | .status => 4
  | .unknown n => n + 5

/-- The mode of a number (10_state.md R20). -/
def Mode.ofCode : Nat → Mode
  | 0 => .idle
  | 1 => .erase
  | 2 => .write
  | 3 => .read
  | 4 => .status
  | n + 5 => .unknown n

/-- The mode is one of the five of 10_state.md R20. -/
def Mode.named : Mode → Bool
  | .idle => true
  | .erase => true
  | .write => true
  | .read => true
  | .status => true
  | .unknown _ => false

/-- The code of a diagnostic (60_exceptions.md R115). -/
def Diag.code : Diag → Nat
  | .unknownCommand _ => 1
  | .badStatusReadAddr _ => 2
  | .badCommandWriteAddr _ => 3
  | .dmaToRamMode _ => 4
  | .dmaFromRamMode _ => 5
  | .execUnknownMode _ => 6

/-- The information a diagnostic records, as a number (60_exceptions.md R115). -/
def Diag.info : Diag → Nat
  | .unknownCommand c => c.toNat
  | .badStatusReadAddr a => a.toNat
  | .badCommandWriteAddr a => a.toNat
  | .dmaToRamMode m => m.code
  | .dmaFromRamMode m => m.code
  | .execUnknownMode m => m.code

end Sys2Proof.Machine
end

