-- ==== Sys2Proof/Machine/Memory.lean ====
section
/-! DEFINITION. Byte memory as a list of cells in canonical form. `u` is what an unlisted address reads as. -/

namespace Sys2Proof.Machine

/-- The canonical form: addresses strictly rising, no entry that says what an unlisted address says. -/
abbrev Memory.wf (u : Byte) (m : Memory) : Prop :=
  m.Pairwise (fun c d => c.1 < d.1) ∧ ∀ c ∈ m, c.2 ≠ u

/-- The byte at an address. -/
def Memory.read (u : Byte) : Memory → Nat → Byte
  | [], _ => u
  | c :: m, a => if c.1 = a then c.2 else Memory.read u m a

/-- A memory without an entry at the address. -/
def Memory.drop (m : Memory) (a : Nat) : Memory := m.filter (fun c => decide (c.1 ≠ a))

/-- A cell put before the first cell of a higher address. -/
def Memory.insert (c : Host.Cell) : Memory → Memory
  | [] => [c]
  | d :: m => if c.1 < d.1 then c :: d :: m else d :: Memory.insert c m

/-- The memory with the byte at an address set. -/
def Memory.write (u : Byte) (m : Memory) (a : Nat) (b : Byte) : Memory :=
  if b = u then Memory.drop m a else Memory.insert (a, b) (Memory.drop m a)

/-- The loop `for i in [0, n): memory[addr i] <- f i`, with i rising (00_scope.md R9). -/
def Memory.writeLoop (u : Byte) (m : Memory) (addr : Nat → Nat) (f : Nat → Byte) : Nat → Memory
  | 0 => m
  | n + 1 => Memory.write u (Memory.writeLoop u m addr f n) (addr n) (f n)

/-- The memory with every byte of `[lo, lo + n)` set to what an unlisted address reads as. -/
def Memory.clearRange (m : Memory) (lo n : Nat) : Memory :=
  m.filter (fun c => decide (¬ (lo ≤ c.1 ∧ c.1 < lo + n)))

end Sys2Proof.Machine
end

