-- ==== Sys2Proof/Machine/Params.lean ====
section
/-! DEFINITION. The values that the spec decides for parameters the source leaves open (00_scope.md R3), and what
an unlisted byte of either buffer reads as. -/

namespace Sys2Proof.Machine

/-- `SWAP_MASK` (00_scope.md R3, R5; D5). Log 14. -/
def swapMask : Nat := 3

/-- `STATUS_DMA_BASE` (00_scope.md R3; D12). Log 15. -/
def statusDmaBase : StatusDmaBase := .literal

/-- `STATUS_ERASE_MODE` (00_scope.md R3; D4). Log 14. -/
def statusEraseMode : Latch := 0x1111800800C20000#64

/-- `STATUS_ERASE_PENDING` (00_scope.md R3; D4). Log 14. -/
def statusErasePending : Latch := 0x1111800400C20000#64

/-- `STATUS_STATUS_MODE` (00_scope.md R3; D4). Log 14. -/
def statusStatusMode : Latch := 0x1111800100C20000#64

/-- `STATUS_READ_MODE` (00_scope.md R3; D4). Log 14. -/
def statusReadMode : Latch := 0x11118004F0000000#64

/-- `FILL_BYTE`: an erased or formatted byte (00_scope.md R3). -/
def fillByte : Byte := 0xFF#8

/-- What an unlisted byte of a backing buffer reads as: the byte of a freshly formatted buffer
(70_reset_and_hazards.md R136, R137); other initial contents are the argument of `State.launch`. DESIGN CHOICE, log 8. -/
def storeUnlisted : Byte := 0xFF#8

/-- What an unlisted byte of RAM reads as. DESIGN CHOICE, log 7. -/
def ramUnlisted : Byte := 0x00#8

end Sys2Proof.Machine
end

