-- ==== Sys2Proof/Machine/Operands.lean ====
section
/-! DEFINITION. Every operand form of the block: the scaled page, the masked command, the register address check,
the DMA length, the DMA flash address, the byte-order adapter, and the bytes of the status word. Index
arithmetic is exact (00_scope.md R6). -/

namespace Sys2Proof.Machine

/-- The byte offset of a page operand: `zext_32(page * 128)` (30_encoding.md R64). -/
def pageOffset (page : BitVec 16) : Word := BitVec.ofNat 32 (page.toNat * Config.pageSize)

/-- The command a register write delivers: `value & mask` (30_encoding.md R67). -/
def maskedCommand (value mask : Word) : Word := value &&& mask

/-- A register address is valid when its low 16 bits are zero (41_register_access.md R98). -/
def addressValid (address : Word) : Bool := address &&& 0x0000FFFF#32 == 0#32

/-- `count = (length & 0x00FFFFFF) + 1` (30_encoding.md R68; 42_dma.md R104). -/
def dmaCount (length : Word) : Nat := (length &&& 0x00FFFFFF#32).toNat + 1

/-- `src_base = (flash_addr & 0xFFFF) * 2` (20_memory.md R55). -/
def dmaSource (flashAddr : Word) : Nat := (flashAddr &&& 0x0000FFFF#32).toNat * 2

/-- Where a Status-mode DMA puts the status word, under either reading of `STATUS_DMA_BASE` (42_dma.md R107). -/
def statusDmaStart (reading : StatusDmaBase) (ramAddr : Word) : Nat :=
  match reading with
  | .literal => ramAddr.toNat
  | .wordTruncate => (ramAddr &&& 0xFFFFFFFC#32).toNat

/-- The byte-order adapter: the physical index of a logical one (20_memory.md R42). -/
def phys (l : Nat) : Nat := l ^^^ swapMask

/-- The address of physical byte `p` of the buffer of handle `h`. Log 9. -/
def bufferAddress (h p : Nat) : Nat := h * Config.flashramSize + p

/-- The high 32 bits of the latch (00_scope.md R6). -/
def hi32 (s : Latch) : Word := s.extractLsb' 32 32

/-- The low 32 bits of the latch (00_scope.md R6). -/
def lo32 (s : Latch) : Word := s.extractLsb' 0 32

/-- Byte `k` of the latch in big-endian order: `s[63-8k : 56-8k]` (00_scope.md R6). -/
def beByte (s : Latch) (k : Nat) : Byte := s.extractLsb' (56 - 8 * k) 8

end Sys2Proof.Machine
end

