-- ==== Sys2Proof/Machine/Ops.lean ====
section
/-! DEFINITION. The named operations over the state, the primitives of 00_scope.md R8. The block takes no exception
and returns from none (60_exceptions.md R113, R126): the shared operations in that place are `State.emitDiag`
(R114), after which the transaction goes on, and `raise` (R121), which stops the model. -/

namespace Sys2Proof.Machine

/-! ## Field writes (`field <- v`, 10_state.md R16) -/

def State.setMode (s : State) (v : Mode) : State := { s with mode := v }

def State.setStatus (s : State) (v : Latch) : State := { s with status := v }

def State.setEraseOffset (s : State) (v : Word) : State := { s with eraseOffset := v }

def State.setWritePointer (s : State) (v : Word) : State := { s with writePointer := v }

def State.setStorage (s : State) (v : Binding) : State := { s with storage := v }

def State.setStore (s : State) (v : Memory) : State := { s with store := v }

def State.setRam (s : State) (v : Memory) : State := { s with ram := v }

def State.setReturned (s : State) (v : Option Word) : State := { s with returned := v }

def State.setPort (s : State) (v : List Packet) : State := { s with port := v }

/-! ## Events (10_state.md R34) -/

/-- An event appended to the history. -/
def State.emit (s : State) (e : Event) : State := { s with events := s.events ++ [e] }

/-- `emit Diag(code, info)` (60_exceptions.md R114). -/
def State.emitDiag (s : State) (d : Diag) : State := s.emit (.diag d)

/-- `emit Save` (20_memory.md R40). -/
def State.emitSave (s : State) : State := s.emit .save

/-! ## Free values (60_exceptions.md R122) -/

/-- The next free value of a status read. Log 12. -/
def State.drawn (s : State) : Word := Config.statusReadDraw s.draws

/-- The state after a draw: the next one is fresh. Log 12. -/
def State.afterDraw (s : State) : State := { s with draws := s.draws + 1 }

/-! ## Ends of a transaction -/

/-- The transaction ends and returns a value to the host (`return v`, 00_scope.md R8). -/
def reply (v : Word) (s : State) : Result := .next (s.setReturned (some v))

/-- The transaction ends and returns nothing. -/
def done (s : State) : Result := .next (s.setReturned none)

/-- `raise Fault(kind, info)`: the model stops and the transaction has changed nothing (60_exceptions.md R121). -/
def raise (f : Fault) : Result := .fault f

/-- Go on from a next state; a stop stays a stop. -/
def andThen (r : Result) (k : State → Result) : Result :=
  match r with
  | .next s => k s
  | .fault f => .fault f
  | .refused f => .refused f

/-! ## Bytes of the buffers (20_memory.md R37, R39) -/

/-- Physical byte `p` of the buffer of handle `h`. -/
def State.storeByte (s : State) (h p : Nat) : Byte := Memory.read storeUnlisted s.store (bufferAddress h p)

/-- Physical byte `p` of RAM. -/
def State.ramByte (s : State) (p : Nat) : Byte := Memory.read ramUnlisted s.ram p

/-- Logical byte `l` of the buffer of handle `h` (20_memory.md R41). -/
def State.storeLogical (s : State) (h l : Nat) : Byte := s.storeByte h (phys l)

/-- Logical byte `l` of RAM. -/
def State.ramLogical (s : State) (l : Nat) : Byte := s.ramByte (phys l)

/-- `for i in [0, n): StoreWrite(phys(base + i), f i)` on the buffer of handle `h` (20_memory.md R43). -/
def State.writeStore (s : State) (h base n : Nat) (f : Nat → Byte) : State :=
  s.setStore (Memory.writeLoop storeUnlisted s.store (fun i => bufferAddress h (phys (base + i))) f n)

/-- `for i in [0, n): RamWrite(phys(base + i), f i)` (20_memory.md R43). -/
def State.writeRam (s : State) (base n : Nat) (f : Nat → Byte) : State :=
  s.setRam (Memory.writeLoop ramUnlisted s.ram (fun i => phys (base + i)) f n)

/-- Every byte of the buffer of handle `h` becomes 0xFF (70_reset_and_hazards.md R136). An erased byte is what an
unlisted byte of a backing buffer reads as, so the buffer's cells go. -/
def State.formatBuffer (s : State) (h : Nat) : State :=
  s.setStore (Memory.clearRange s.store (bufferAddress h 0) Config.flashramSize)

/-- The buffer of handle `h` becomes a persisted artifact: the bytes of the whole buffer by physical index, with no
header, checksum or version (20_memory.md R36; 70_reset_and_hazards.md R137). Log 8. -/
def State.loadArtifact (s : State) (h : Nat) (artifact : List Byte) : State :=
  s.setStore (Memory.writeLoop storeUnlisted (s.formatBuffer h).store (bufferAddress h)
    (fun p => artifact.getD p fillByte) (min artifact.length Config.flashramSize))

/-! ## The checks before any byte is written (20_memory.md R44; 60_exceptions.md R124) -/

/-- The binding check: go on with the bound handle. -/
def withStorage (site : Site) (s : State) (k : Nat → Result) : Result :=
  match s.storage with
  | .unbound => raise (.unbound site)
  | .bound h => k h

/-- The range check of `n` bytes from `base` in a buffer of `size` bytes; `reported` is the index the fault names. -/
def checkRange (site : Site) (buffer : Buffer) (base n size reported : Nat) (k : Result) : Result :=
  if base + n > size then raise (.outOfRange buffer reported site) else k

/-! ## The port (00_scope.md R1, R2) -/

/-- The oldest transaction the host has issued, and the state in which it runs. Log 1. -/
def State.take (s : State) : Option (Packet × State) :=
  match s.port with
  | [] => none
  | p :: rest => some (p, s.setPort rest)

end Sys2Proof.Machine
end

