-- ==== Sys2Proof/Machine/Dma.lean ====
section
/-! DEFINITION. The meanings of the two DMA transactions (42_dma.md). Each that does not fault returns `DMA_COST`
(R105). -/

namespace Sys2Proof.Machine

/-- DMA_TO_RAM in Status mode: the eight bytes of the status word, big-endian in the logical view (R107). -/
def dmaStatusBranch (ramAddr : Word) (s : State) : Result :=
  checkRange .dmaToRam .ram (statusDmaStart statusDmaBase ramAddr) 8 s.ramSize (statusDmaStart statusDmaBase ramAddr) <|
    .next (s.writeRam (statusDmaStart statusDmaBase ramAddr) 8 fun k => beByte s.status k)

/-- DMA_TO_RAM in Read mode: `count` bytes of the bound buffer, from the translated flash address (R108). -/
def dmaReadBranch (ramAddr flashAddr length : Word) (s : State) : Result :=
  withStorage .dmaToRam s fun h =>
    checkRange .dmaToRam .store (dmaSource flashAddr) (dmaCount length) Config.flashramSize
        (dmaSource flashAddr + dmaCount length - 1) <|
      checkRange .dmaToRam .ram ramAddr.toNat (dmaCount length) s.ramSize (ramAddr.toNat + dmaCount length - 1) <|
        .next (s.writeRam ramAddr.toNat (dmaCount length) fun i => s.storeLogical h (dmaSource flashAddr + i))

/-- The branch of DMA_TO_RAM that the mode selects (R106, R109). -/
def dmaToRamBranch (ramAddr flashAddr length : Word) (s : State) : Result :=
  match s.mode with
  | .status => dmaStatusBranch ramAddr s
  | .read => dmaReadBranch ramAddr flashAddr length s
  | .idle => .next (s.emitDiag (.dmaToRamMode .idle))
  | .erase => .next (s.emitDiag (.dmaToRamMode .erase))
  | .write => .next (s.emitDiag (.dmaToRamMode .write))
  | .unknown n => .next (s.emitDiag (.dmaToRamMode (.unknown n)))

/-- DMA_TO_RAM (R106). -/
def execDmaToRam (ramAddr flashAddr length : Word) (s : State) : Result :=
  andThen (dmaToRamBranch ramAddr flashAddr length s) (reply Config.dmaCost)

/-- The branch of DMA_FROM_RAM that the mode selects (R111, R112). -/
def dmaFromRamBranch (ramAddr : Word) (s : State) : Result :=
  match s.mode with
  | .write => .next (s.setWritePointer ramAddr)
  | .idle => .next (s.emitDiag (.dmaFromRamMode .idle))
  | .erase => .next (s.emitDiag (.dmaFromRamMode .erase))
  | .read => .next (s.emitDiag (.dmaFromRamMode .read))
  | .status => .next (s.emitDiag (.dmaFromRamMode .status))
  | .unknown n => .next (s.emitDiag (.dmaFromRamMode (.unknown n)))

/-- DMA_FROM_RAM (R110): `flash_addr` and `length` have no effect (D27). -/
def execDmaFromRam (ramAddr _flashAddr _length : Word) (s : State) : Result :=
  andThen (dmaFromRamBranch ramAddr s) (reply Config.dmaCost)

end Sys2Proof.Machine
end

