-- ==== Sys2Proof/Machine/Lifecycle.lean ====
section
/-! DEFINITION. The meanings of the three lifecycle transactions, the state before the first POWER_ON, and the launch
argument (70_reset_and_hazards.md). -/

namespace Sys2Proof.Machine

/-- INITIALIZE (R133): bind the handle, also over an earlier binding (D25). -/
def execInitializeStorage (handle : Nat) (s : State) : Result := done (s.setStorage (.bound handle))

/-- POWER_ON (R134): the four fields, nothing else. -/
def execPowerOn (s : State) : Result :=
  done ((((s.setMode .idle).setStatus 0#64).setEraseOffset 0#32).setWritePointer 0#32)

/-- FORMAT (R136): every byte of the named buffer becomes 0xFF; no Save. -/
def execFormat (buffer : Nat) (s : State) : Result := done (s.formatBuffer buffer)

/-- A state before the first POWER_ON: the four fields are free draws, storage is unbound (R132). Log 10. -/
def State.cold : State :=
  { State.reset with
    mode := Mode.ofCode Config.coldModeCode
    status := Config.coldStatus
    eraseOffset := Config.coldEraseOffset
    writePointer := Config.coldWritePointer }

/-- The launch argument: the initial contents of the buffers that handles give at INITIALIZE, each a persisted artifact
(R137; D23). A handle with none keeps the contents it has in `s`; in `State.reset` and `State.cold` that is a freshly
formatted buffer. Log 8. -/
def State.launch (s : State) (artifacts : List (Nat × List Byte)) : State :=
  artifacts.foldl (fun t a => t.loadArtifact a.1 a.2) s

end Sys2Proof.Machine
end

