-- ==== Sys2Proof/Machine/Commands.lean ====
section
/-! DEFINITION. The meanings of the seven command words, and the decoder's dispatch on them (40_commands.md). A
command writes only the fields its rule lists (R82) and returns nothing (R81). -/

namespace Sys2Proof.Machine

/-- ERASE_SETUP (R83). -/
def execEraseSetup (page : BitVec 16) (s : State) : Result := done (s.setEraseOffset (pageOffset page))

/-- ERASE_MODE (R84). -/
def execEraseMode (s : State) : Result := done ((s.setMode .erase).setStatus statusEraseMode)

/-- ERASE_OFFSET (R85; D17). -/
def execEraseOffset (page : BitVec 16) (s : State) : Result :=
  done (((s.setEraseOffset (pageOffset page)).setMode .erase).setStatus statusErasePending)

/-- WRITE_MODE (R86). -/
def execWriteMode (s : State) : Result := done (s.setMode .write)

/-- EXECUTE in Erase mode: one page of the bound buffer becomes 0xFF, then one Save (R90). -/
def eraseBranch (s : State) : Result :=
  withStorage .execute s fun h =>
    checkRange .execute .store s.eraseOffset.toNat Config.pageSize Config.flashramSize s.eraseOffset.toNat <|
      .next ((s.writeStore h s.eraseOffset.toNat Config.pageSize fun _ => fillByte).emitSave)

/-- EXECUTE in Write mode: one page of the bound buffer is copied from RAM, then one Save (R91). -/
def writeBranch (s : State) : Result :=
  withStorage .execute s fun h =>
    checkRange .execute .store s.eraseOffset.toNat Config.pageSize Config.flashramSize s.eraseOffset.toNat <|
      checkRange .execute .ram s.writePointer.toNat Config.pageSize s.ramSize s.writePointer.toNat <|
        .next ((s.writeStore h s.eraseOffset.toNat Config.pageSize
          fun i => s.ramLogical (s.writePointer.toNat + i)).emitSave)

/-- The branch of EXECUTE that the mode selects (R88 to R93). -/
def executeBranch (s : State) : Result :=
  match s.mode with
  | .idle => .next s
  | .read => .next s
  | .erase => eraseBranch s
  | .write => writeBranch s
  | .status => .next s
  | .unknown n => .next (s.emitDiag (.execUnknownMode (.unknown n)))

/-- EXECUTE: the branch, then `mode <- Idle` (R87). -/
def execExecute (s : State) : Result := andThen (executeBranch s) fun t => done (t.setMode .idle)

/-- STATUS_MODE (R94). -/
def execStatusMode (s : State) : Result := done ((s.setMode .status).setStatus statusStatusMode)

/-- READ_MODE (R95). -/
def execReadMode (s : State) : Result := done ((s.setMode .read).setStatus statusReadMode)

/-- UNRECOGNIZED: the diagnostic and no change (R96). -/
def unrecognized (command : Word) (s : State) : Result := done (s.emitDiag (.unknownCommand command))

/-- `execute_command`: dispatch on `command[31:24]` and nothing else (R81). -/
def executeCommand (command : Word) (s : State) : Result :=
  if opcodeOf command = opcEraseSetup then execEraseSetup (pageOf command) s
  else if opcodeOf command = opcEraseMode then execEraseMode s
  else if opcodeOf command = opcEraseOffset then execEraseOffset (pageOf command) s
  else if opcodeOf command = opcWriteMode then execWriteMode s
  else if opcodeOf command = opcExecute then execExecute s
  else if opcodeOf command = opcStatusMode then execStatusMode s
  else if opcodeOf command = opcReadMode then execReadMode s
  else unrecognized command s

end Sys2Proof.Machine
end

