-- ==== Sys2Proof/Machine/Registers.lean ====
section
/-! DEFINITION. The meanings of the four register transactions (41_register_access.md). -/

namespace Sys2Proof.Machine

/-- REG_READ_STATUS (R99): the high half of the latch, or on a bad address the diagnostic and a free value. -/
def execRegReadStatus (address : Word) (s : State) : Result :=
  if addressValid address then reply (hi32 s.status) s
  else reply s.drawn (s.emitDiag (.badStatusReadAddr address)).afterDraw

/-- REG_WRITE_STATUS (R100): ignored, at any address. -/
def execRegWriteStatus (_address _value _mask : Word) (s : State) : Result := done s

/-- REG_READ_COMMAND (R101): zero, at any address. -/
def execRegReadCommand (_address : Word) (s : State) : Result := reply 0#32 s

/-- REG_WRITE_COMMAND (R102): the masked value goes to the decoder; a bad address drops the write. -/
def execRegWriteCommand (address value mask : Word) (s : State) : Result :=
  if addressValid address then executeCommand (maskedCommand value mask) s
  else done (s.emitDiag (.badCommandWriteAddr address))

end Sys2Proof.Machine
end

