-- ==== Sys2Proof/Machine/Dispatch.lean ====
section
/-! DEFINITION. One arm for each constructor of Instr. -/

namespace Sys2Proof.Machine

def exec (i : Instr) (s : State) : Host.Outcome State Fault Refusal :=
  match i with
  | .eraseSetup page => Sys2Proof.Machine.execEraseSetup page s
  | .eraseMode => Sys2Proof.Machine.execEraseMode s
  | .eraseOffset page => Sys2Proof.Machine.execEraseOffset page s
  | .writeMode => Sys2Proof.Machine.execWriteMode s
  | .execute => Sys2Proof.Machine.execExecute s
  | .statusMode => Sys2Proof.Machine.execStatusMode s
  | .readMode => Sys2Proof.Machine.execReadMode s
  | .regReadStatus address => Sys2Proof.Machine.execRegReadStatus address s
  | .regWriteStatus address value mask => Sys2Proof.Machine.execRegWriteStatus address value mask s
  | .regReadCommand address => Sys2Proof.Machine.execRegReadCommand address s
  | .regWriteCommand address value mask => Sys2Proof.Machine.execRegWriteCommand address value mask s
  | .dmaToRam ramAddr flashAddr length => Sys2Proof.Machine.execDmaToRam ramAddr flashAddr length s
  | .dmaFromRam ramAddr flashAddr length => Sys2Proof.Machine.execDmaFromRam ramAddr flashAddr length s
  | .initializeStorage handle => Sys2Proof.Machine.execInitializeStorage handle s
  | .powerOn => Sys2Proof.Machine.execPowerOn s
  | .format buffer => Sys2Proof.Machine.execFormat buffer s

end Sys2Proof.Machine
end

