-- ==== Sys2Proof/Machine/Step.lean ====
section
/-! DEFINITION. One step: the block takes the oldest transaction of the port and runs it to completion
(00_scope.md R1). With none issued it makes no step of its own. -/

namespace Sys2Proof.Machine

def step (s : State) : Host.Outcome State Fault Refusal :=
  match s.take with
  | none => .next s
  | some (p, s') =>
    match decodePacket p with
    | some i => exec i s'
    | none => raise (.refusedTag p.tag)

/-- `s` with the instruction of a row of opcode_table.json issued as the next transaction. Log 3, 4. -/
def State.withFetchWord (s : State) (nbits w : Nat) : State :=
  s.setPort ((Code.ofTable nbits w).delivery :: s.port)

end Sys2Proof.Machine
end

