-- ==== Sys2Proof/Safety.lean ====
section
/-! DEFINITION. What claims about the machine are stated with: when a transaction does not fault, sequences of
transactions and of steps, and the invariants of the state. -/

namespace Sys2Proof.Machine

/-! ## When a transaction does not fault (60_exceptions.md R121, R123) -/

/-- Storage is bound. -/
abbrev State.isBound (s : State) : Prop := s.storage ≠ .unbound

/-- The page at `eraseOffset` lies in the buffer (40_commands.md R90). -/
abbrev State.pageInStore (s : State) : Prop := s.eraseOffset.toNat + Config.pageSize ≤ Config.flashramSize

/-- The 128 bytes at `writePointer` lie in RAM (40_commands.md R91). -/
abbrev State.sourceInRam (s : State) : Prop := s.writePointer.toNat + Config.pageSize ≤ s.ramSize

/-- EXECUTE does not fault: what 40_commands.md R90 and R91 ask of the state. -/
abbrev State.executeReady (s : State) : Prop :=
  (s.mode = .erase → s.isBound ∧ s.pageInStore) ∧ (s.mode = .write → s.isBound ∧ s.pageInStore ∧ s.sourceInRam)

/-- DMA_TO_RAM does not fault: what 42_dma.md R107 and R108 ask of the state and the operands. -/
abbrev State.dmaReady (s : State) (ramAddr flashAddr length : Word) : Prop :=
  (s.mode = .status → statusDmaStart statusDmaBase ramAddr + 8 ≤ s.ramSize) ∧
  (s.mode = .read → s.isBound ∧ dmaSource flashAddr + dmaCount length ≤ Config.flashramSize ∧
    ramAddr.toNat + dmaCount length ≤ s.ramSize)

/-! ## The command a register write carries -/

/-- The operation a transaction carries out: a command register write at a valid address carries out the command
it delivers (41_register_access.md R102) and none if the word is unrecognized; any other is itself. -/
def carriedOut : Instr → Option Instr
  | .eraseSetup page => some (.eraseSetup page)
  | .eraseMode => some .eraseMode
  | .eraseOffset page => some (.eraseOffset page)
  | .writeMode => some .writeMode
  | .execute => some .execute
  | .statusMode => some .statusMode
  | .readMode => some .readMode
  | .regReadStatus a => some (.regReadStatus a)
  | .regWriteStatus a v m => some (.regWriteStatus a v m)
  | .regReadCommand a => some (.regReadCommand a)
  | .regWriteCommand a v m => if addressValid a then decodeCommand (maskedCommand v m) else none
  | .dmaToRam r f l => some (.dmaToRam r f l)
  | .dmaFromRam r f l => some (.dmaFromRam r f l)
  | .initializeStorage h => some (.initializeStorage h)
  | .powerOn => some .powerOn
  | .format b => some (.format b)

/-! ## Sequences -/

/-- Transactions one after the other, each to completion (00_scope.md R1); a stop ends the sequence. -/
def execAll : List Instr → State → Result
  | [], s => .next s
  | i :: rest, s => andThen (exec i s) (execAll rest)

/-- `k` steps; a stop ends the run. A claim about a run takes `steps k s = .next t`, that is, no fault recorded
(60_exceptions.md R121). -/
def steps : Nat → State → Result
  | 0, s => .next s
  | k + 1, s => andThen (step s) (steps k)

/-! ## Invariants -/

/-- The invariants of 10_state.md R32, promised from POWER_ON on. -/
structure State.deviceInv (s : State) : Prop where
  mode_named : s.mode.named = true
  offset_aligned : s.eraseOffset.toNat % Config.pageSize = 0
  offset_bounded : s.eraseOffset.toNat ≤ 0x7FFF80
  status_latched : s.status = 0#64 ∨ s.status = statusEraseMode ∨ s.status = statusErasePending ∨
    s.status = statusStatusMode ∨ s.status = statusReadMode

/-- Both memories keep their canonical form. -/
structure State.memoryInv (s : State) : Prop where
  store_wf : Memory.wf storeUnlisted s.store
  ram_wf : Memory.wf ramUnlisted s.ram

/-- RAM_SIZE is a multiple of 4 and at most 2^32 (20_memory.md R38), and RAM lists no byte outside the buffer. -/
structure State.ramInv (s : State) : Prop where
  size_words : s.ramSize % 4 = 0
  size_bounded : s.ramSize ≤ 2 ^ 32
  cells_inside : ∀ c ∈ s.ram, c.1 < s.ramSize

end Sys2Proof.Machine
end

