-- ==== Sys2Proof/Certificates/Slice0/Obligations.lean ====
section
/-! DEFINITION. The statements about the FlashRAM core, for the provers. In a statement `{ s with … }` is the whole
frame: every field and every byte that is not named is unchanged. -/

open Sys2Proof Sys2Proof.Machine

/-! ## Encoding (30_encoding.md) -/

/-- The opcode byte alone selects the command, and the page is bits [15:0] (R62, R63). The byte values are the spec's
own decision D3 (log 14). -/
def Obligations.OpcodeByteSelectsCommand : Prop :=
  ∀ w : Word,
    (w.extractLsb' 24 8 = 0x4B#8 → decodeCommand w = some (.eraseSetup (w.extractLsb' 0 16))) ∧
    (w.extractLsb' 24 8 = 0x78#8 → decodeCommand w = some .eraseMode) ∧
    (w.extractLsb' 24 8 = 0xA5#8 → decodeCommand w = some (.eraseOffset (w.extractLsb' 0 16))) ∧
    (w.extractLsb' 24 8 = 0xB4#8 → decodeCommand w = some .writeMode) ∧
    (w.extractLsb' 24 8 = 0xD2#8 → decodeCommand w = some .execute) ∧
    (w.extractLsb' 24 8 = 0xE1#8 → decodeCommand w = some .statusMode) ∧
    (w.extractLsb' 24 8 = 0xF0#8 → decodeCommand w = some .readMode) ∧
    (w.extractLsb' 24 8 ∉ [0x4B#8, 0x78#8, 0xA5#8, 0xB4#8, 0xD2#8, 0xE1#8, 0xF0#8] → decodeCommand w = none)

/-- Words written out from the tables of R62 and R73 decode to what they stand for. Opcodes and tags are the spec's
own decisions D3 and D16 (log 14); that the lanes follow the tag is the model's layout (log 2). -/
def Obligations.SpecWordsDecode : Prop :=
  decodeTableWord 32 0x4B000005 = some (.eraseSetup 5) ∧
  decodeTableWord 32 0xA5FF0003 = some (.eraseOffset 3) ∧
  decodeTableWord 32 0xD2FFFFFF = some .execute ∧
  decodeTableWord 32 0x00000000 = none ∧
  decodeTableWord 8 0x03 = some (.regWriteCommand 0 0 0) ∧
  decodeTableWord 8 0x04 = some (.dmaToRam 0 0 0) ∧
  decodeTableWord 8 0x07 = some .powerOn ∧
  decodeTableWord 8 0x09 = none

/-- A packet's tag selects the transaction, its lanes are the operands in the order of R73, and the step refuses the
tags 9 to 15. The tags are the spec's own decision D16; the lanes are the model's layout (log 2). -/
def Obligations.TagSelectsTransaction : Prop :=
  ∀ a b c : Word,
    decodePacket ⟨0, a, b, c⟩ = some (.regReadStatus a) ∧
    decodePacket ⟨1, a, b, c⟩ = some (.regWriteStatus a b c) ∧
    decodePacket ⟨2, a, b, c⟩ = some (.regReadCommand a) ∧
    decodePacket ⟨3, a, b, c⟩ = some (.regWriteCommand a b c) ∧
    decodePacket ⟨4, a, b, c⟩ = some (.dmaToRam a b c) ∧
    decodePacket ⟨5, a, b, c⟩ = some (.dmaFromRam a b c) ∧
    decodePacket ⟨6, a, b, c⟩ = some (.initializeStorage a.toNat) ∧
    decodePacket ⟨7, a, b, c⟩ = some .powerOn ∧
    decodePacket ⟨8, a, b, c⟩ = some (.format a.toNat) ∧
    (∀ (t : Tag) (s : State) (rest : List Packet), 9 ≤ t.toNat →
      step { s with port := ⟨t, a, b, c⟩ :: rest } = .fault (.refusedTag t))

/-- Every well-formed instruction is what its code decodes to, with every operand. -/
def Obligations.DecodeInvertsEncode : Prop :=
  ∀ i : Instr, i.wf = true → decode (encode i) = .instr i

/-- Every canonical code is the code of the instruction it decodes to, so no two canonical codes are one
instruction. -/
def Obligations.EncodeInvertsDecode : Prop :=
  ∀ (c : Code) (i : Instr), c.canonical = true → decode c = .instr i → i.wf = true ∧ encode i = c

/-! ## The step (00_scope.md R1) -/

/-- A step takes the oldest transaction of the port and is exec of what it decodes to, in the state without it. The
port is the model's queue of issued transactions (log 1). -/
def Obligations.StepRunsDecodedTransaction : Prop :=
  ∀ (s : State) (p : Packet) (rest : List Packet) (i : Instr), s.port = p :: rest → decodePacket p = some i →
    step s = exec i { s with port := rest }

/-- Every well-formed instruction issued by its code is run by the next step, the seven commands through the command
register write that delivers them (log 3). -/
def Obligations.StepRunsEveryIssuedInstruction : Prop :=
  ∀ (s : State) (i : Instr) (rest : List Packet), i.wf = true →
    step { s with port := (encode i).delivery :: rest } = exec i { s with port := rest }

/-- With no transaction issued the device makes no step of its own (R1; the empty port is log 1). -/
def Obligations.NoTransactionNoStep : Prop :=
  ∀ s : State, s.port = [] → step s = .next s

/-! ## Setup and mode-entry commands (40_commands.md) -/

/-- ERASE_SETUP (R83). -/
def Obligations.EraseSetupSetsOffset : Prop :=
  (∀ w : Word, w.extractLsb' 24 8 = 0x4B#8 → decodeCommand w = some (.eraseSetup (w.extractLsb' 0 16))) ∧
  ∀ (page : BitVec 16) (s : State), exec (.eraseSetup page) s =
    .next { s with eraseOffset := BitVec.ofNat 32 (page.toNat * 128), returned := none }

/-- ERASE_MODE (R84). The constant is the spec's own decision D4 (log 14). -/
def Obligations.EraseModeEntersErase : Prop :=
  (∀ w : Word, w.extractLsb' 24 8 = 0x78#8 → decodeCommand w = some .eraseMode) ∧
  ∀ s : State, exec .eraseMode s =
    .next { s with mode := .erase, status := 0x1111800800C20000#64, returned := none }

/-- ERASE_OFFSET (R85). That it enters Erase is the spec's decision D17, the constant its decision D4 (log 14). -/
def Obligations.EraseOffsetEntersErase : Prop :=
  (∀ w : Word, w.extractLsb' 24 8 = 0xA5#8 → decodeCommand w = some (.eraseOffset (w.extractLsb' 0 16))) ∧
  ∀ (page : BitVec 16) (s : State), exec (.eraseOffset page) s =
    .next { s with
      eraseOffset := BitVec.ofNat 32 (page.toNat * 128), mode := .erase, status := 0x1111800400C20000#64,
      returned := none }

/-- WRITE_MODE (R86). -/
def Obligations.WriteModeKeepsStatus : Prop :=
  (∀ w : Word, w.extractLsb' 24 8 = 0xB4#8 → decodeCommand w = some .writeMode) ∧
  ∀ s : State, exec .writeMode s = .next { s with mode := .write, returned := none }

/-- STATUS_MODE (R94). The constant is the spec's own decision D4 (log 14). -/
def Obligations.StatusModeEntersStatus : Prop :=
  (∀ w : Word, w.extractLsb' 24 8 = 0xE1#8 → decodeCommand w = some .statusMode) ∧
  ∀ s : State, exec .statusMode s =
    .next { s with mode := .status, status := 0x1111800100C20000#64, returned := none }

/-- READ_MODE (R95). The constant is the spec's own decision D4 (log 14). -/
def Obligations.ReadModeEntersRead : Prop :=
  (∀ w : Word, w.extractLsb' 24 8 = 0xF0#8 → decodeCommand w = some .readMode) ∧
  ∀ s : State, exec .readMode s =
    .next { s with mode := .read, status := 0x11118004F0000000#64, returned := none }

/-! ## EXECUTE (40_commands.md section 3) -/

/-- EXECUTE in Idle, Read and Status mode changes nothing but the mode (R87, R88, R89, R92), and a DMA read right after
it is a mode mismatch (42_dma.md R109, as R142 infers). -/
def Obligations.ExecuteWithoutEffect : Prop :=
  ∀ s : State, s.mode = .idle ∨ s.mode = .read ∨ s.mode = .status →
    exec .execute s = .next { s with mode := .idle, returned := none } ∧
    ∀ ramAddr flashAddr length : Word, execAll [.execute, .dmaToRam ramAddr flashAddr length] s =
      .next { s with
        mode := .idle, events := s.events ++ [.diag (.dmaToRamMode .idle)], returned := some Config.dmaCost }

/-- EXECUTE in Erase mode (R90): the faults in their order; otherwise the page becomes 0xFF in the logical view, every
other byte of the backing memory is as before, one Save is emitted and the mode is Idle. With an aligned offset
the bytes written are the physical bytes of the same page. The faults are the spec's own decision D8. -/
def Obligations.ExecuteErasesOnePage : Prop :=
  ∀ s : State, s.mode = .erase →
    (s.storage = .unbound → exec .execute s = .fault (.unbound .execute)) ∧
    ∀ h : Nat, s.storage = .bound h →
      (0x20000 < s.eraseOffset.toNat + 128 →
        exec .execute s = .fault (.outOfRange .store s.eraseOffset.toNat .execute)) ∧
      (s.eraseOffset.toNat + 128 ≤ 0x20000 → ∃ m : Memory,
        exec .execute s =
          .next { s with mode := .idle, store := m, events := s.events ++ [.save], returned := none } ∧
        (∀ l, s.eraseOffset.toNat ≤ l → l < s.eraseOffset.toNat + 128 →
          Memory.read storeUnlisted m (bufferAddress h (phys l)) = 0xFF#8) ∧
        (∀ a, (∀ l, s.eraseOffset.toNat ≤ l → l < s.eraseOffset.toNat + 128 → a ≠ bufferAddress h (phys l)) →
          Memory.read storeUnlisted m a = Memory.read storeUnlisted s.store a) ∧
        (s.eraseOffset.toNat % 128 = 0 → ∀ p,
          s.eraseOffset.toNat ≤ p ∧ p < s.eraseOffset.toNat + 128 →
            Memory.read storeUnlisted m (bufferAddress h p) = 0xFF#8))

/-- EXECUTE in Write mode (R91): the faults in their order; otherwise logical byte `erase_offset + i` of the buffer
gets logical RAM byte `write_pointer + i`, every other byte of the backing memory is as before, RAM is not written,
one Save is emitted and the mode is Idle. With aligned bases it is a physical block copy. The faults are the spec's
own decision D8. -/
def Obligations.ExecuteProgramsOnePage : Prop :=
  ∀ s : State, s.mode = .write →
    (s.storage = .unbound → exec .execute s = .fault (.unbound .execute)) ∧
    ∀ h : Nat, s.storage = .bound h →
      (0x20000 < s.eraseOffset.toNat + 128 →
        exec .execute s = .fault (.outOfRange .store s.eraseOffset.toNat .execute)) ∧
      (s.eraseOffset.toNat + 128 ≤ 0x20000 → s.ramSize < s.writePointer.toNat + 128 →
        exec .execute s = .fault (.outOfRange .ram s.writePointer.toNat .execute)) ∧
      (s.eraseOffset.toNat + 128 ≤ 0x20000 → s.writePointer.toNat + 128 ≤ s.ramSize → ∃ m : Memory,
        exec .execute s =
          .next { s with mode := .idle, store := m, events := s.events ++ [.save], returned := none } ∧
        (∀ i < 128, Memory.read storeUnlisted m (bufferAddress h (phys (s.eraseOffset.toNat + i))) =
          Memory.read ramUnlisted s.ram (phys (s.writePointer.toNat + i))) ∧
        (∀ a, (∀ i < 128, a ≠ bufferAddress h (phys (s.eraseOffset.toNat + i))) →
          Memory.read storeUnlisted m a = Memory.read storeUnlisted s.store a) ∧
        (s.eraseOffset.toNat % 4 = 0 → s.writePointer.toNat % 4 = 0 → ∀ j < 128,
          Memory.read storeUnlisted m (bufferAddress h (s.eraseOffset.toNat + j)) =
            Memory.read ramUnlisted s.ram (s.writePointer.toNat + j)))

/-- EXECUTE with a mode outside the five (R93; the spec's decision D22): the diagnostic, and the mode is Idle. -/
def Obligations.ExecuteUnknownModeReports : Prop :=
  ∀ (s : State) (n : Nat), s.mode = .unknown n →
    exec .execute s = .next { s with
      mode := .idle, events := s.events ++ [.diag (.execUnknownMode (.unknown n))], returned := none }

/-- After any EXECUTE that does not fault the mode is Idle, and only the mode, the backing memory, the event history
and the returned value may differ (R87). -/
def Obligations.ExecuteAlwaysEndsIdle : Prop :=
  ∀ s t : State, exec .execute s = .next t →
    t = { s with mode := .idle, store := t.store, events := t.events, returned := none }

/-! ## Register transactions (41_register_access.md) -/

/-- REG_READ_STATUS (R99): a valid address reads the high half of the latch; any other reports and returns some
value, of which nothing is said (the spec's decision D9). -/
def Obligations.StatusReadReturnsHighHalf : Prop :=
  ∀ (s : State) (a : Word),
    (a.extractLsb' 0 16 = 0#16 →
      exec (.regReadStatus a) s = .next { s with returned := some (s.status.extractLsb' 32 32) }) ∧
    (a.extractLsb' 0 16 ≠ 0#16 → ∃ v : Word,
      exec (.regReadStatus a) s = .next { s with
        events := s.events ++ [.diag (.badStatusReadAddr a)], returned := some v, draws := s.draws + 1 })

/-- REG_WRITE_STATUS (R100) is ignored at any address (the spec's decision D21). -/
def Obligations.StatusWriteIgnored : Prop :=
  ∀ (s : State) (a v m : Word), exec (.regWriteStatus a v m) s = .next { s with returned := none }

/-- REG_READ_COMMAND (R101) returns zero at any address (the spec's decision D21). -/
def Obligations.CommandReadsZero : Prop :=
  ∀ (s : State) (a : Word), exec (.regReadCommand a) s = .next { s with returned := some 0#32 }

/-- REG_WRITE_COMMAND (R102): at a valid address the masked value is decoded and its command runs; at any other the
write is dropped with a diagnostic. -/
def Obligations.CommandWriteDispatches : Prop :=
  ∀ (s : State) (a v m : Word),
    (a.extractLsb' 0 16 = 0#16 →
      (∀ i, decodeCommand (v &&& m) = some i → exec (.regWriteCommand a v m) s = exec i s) ∧
      (decodeCommand (v &&& m) = none → exec (.regWriteCommand a v m) s =
        .next { s with events := s.events ++ [.diag (.unknownCommand (v &&& m))], returned := none })) ∧
    (a.extractLsb' 0 16 ≠ 0#16 →
      exec (.regWriteCommand a v m) s =
        .next { s with events := s.events ++ [.diag (.badCommandWriteAddr a)], returned := none })

/-- REG_WRITE_COMMAND completes with the effect of the command it delivers, whenever EXECUTE would not fault. -/
def Obligations.CommandWriteCompletes : Prop :=
  ∀ (s : State) (a v m : Word) (i : Instr), a.extractLsb' 0 16 = 0#16 → decodeCommand (v &&& m) = some i →
    (i = .execute → s.executeReady) →
    ∃ t, exec (.regWriteCommand a v m) s = .next t ∧ exec i s = .next t

/-- An unrecognized command word (R96) reports and changes nothing. -/
def Obligations.UnrecognizedCommandReports : Prop :=
  ∀ (s : State) (a v m : Word), a.extractLsb' 0 16 = 0#16 →
    (v &&& m).extractLsb' 24 8 ∉ [0x4B#8, 0x78#8, 0xA5#8, 0xB4#8, 0xD2#8, 0xE1#8, 0xF0#8] →
    exec (.regWriteCommand a v m) s =
      .next { s with events := s.events ++ [.diag (.unknownCommand (v &&& m))], returned := none }

/-- The mask is applied before decoding (R67): the opcode seen is the opcode of the value under the opcode lane of the
mask, and a mask that clears the opcode byte makes every write unrecognized. -/
def Obligations.MaskClearsOpcodeBits : Prop :=
  ∀ v m : Word,
    opcodeOf (maskedCommand v m) = opcodeOf v &&& opcodeOf m ∧
    (m.extractLsb' 24 8 = 0#8 → decodeCommand (maskedCommand v m) = none)

/-! ## DMA (42_dma.md) -/

/-- DMA_TO_RAM in Status mode (R107): the fault; otherwise the eight bytes of the status word, big-endian in the
logical view, every other byte of RAM as before, nothing else changed, `DMA_COST` returned. The fault is the spec's own
decision D8, the base at an unaligned address its decision D12 (log 15). -/
def Obligations.StatusDmaWritesStatusWord : Prop :=
  ∀ (s : State) (r f l : Word), s.mode = .status →
    (s.ramSize < r.toNat + 8 → exec (.dmaToRam r f l) s = .fault (.outOfRange .ram r.toNat .dmaToRam)) ∧
    (r.toNat + 8 ≤ s.ramSize → ∃ m : Memory,
      exec (.dmaToRam r f l) s = .next { s with ram := m, returned := some Config.dmaCost } ∧
      (∀ k < 8, Memory.read ramUnlisted m (phys (r.toNat + k)) = s.status.extractLsb' (56 - 8 * k) 8) ∧
      (∀ a, (∀ k < 8, a ≠ phys (r.toNat + k)) → Memory.read ramUnlisted m a = Memory.read ramUnlisted s.ram a))

/-- DMA_TO_RAM in Read mode (R108): the faults in their order; otherwise logical RAM byte `ram_addr + i` gets logical
storage byte `src_base + i` for each i below count, every other byte of RAM as before, nothing else changed,
`DMA_COST` returned. The faults are the spec's own decision D8. -/
def Obligations.ReadDmaCopiesStorage : Prop :=
  ∀ (s : State) (r f l : Word), s.mode = .read →
    (s.storage = .unbound → exec (.dmaToRam r f l) s = .fault (.unbound .dmaToRam)) ∧
    ∀ h src n : Nat, s.storage = .bound h → src = f.toNat % 0x10000 * 2 → n = l.toNat % 0x1000000 + 1 →
      (0x20000 < src + n → exec (.dmaToRam r f l) s = .fault (.outOfRange .store (src + n - 1) .dmaToRam)) ∧
      (src + n ≤ 0x20000 → s.ramSize < r.toNat + n →
        exec (.dmaToRam r f l) s = .fault (.outOfRange .ram (r.toNat + n - 1) .dmaToRam)) ∧
      (src + n ≤ 0x20000 → r.toNat + n ≤ s.ramSize → ∃ m : Memory,
        exec (.dmaToRam r f l) s = .next { s with ram := m, returned := some Config.dmaCost } ∧
        (∀ i < n, Memory.read ramUnlisted m (phys (r.toNat + i)) =
          Memory.read storeUnlisted s.store (bufferAddress h (phys (src + i)))) ∧
        (∀ a, (∀ i < n, a ≠ phys (r.toNat + i)) →
          Memory.read ramUnlisted m a = Memory.read ramUnlisted s.ram a))

/-- A Read-mode DMA between 4-aligned bases, of a multiple of 4 bytes, is a physical block copy. -/
def Obligations.AlignedReadDmaIsBlockCopy : Prop :=
  ∀ (s t : State) (h : Nat) (r f l : Word), s.mode = .read → s.storage = .bound h →
    r.toNat % 4 = 0 → dmaSource f % 4 = 0 → dmaCount l % 4 = 0 → exec (.dmaToRam r f l) s = .next t →
    ∀ j < dmaCount l, t.ramByte (r.toNat + j) = s.storeByte h (dmaSource f + j)

/-- DMA_TO_RAM in any other mode (R109): the diagnostic, no transfer, no range check. -/
def Obligations.DmaToRamMismatchReports : Prop :=
  ∀ (s : State) (r f l : Word), s.mode ≠ .status → s.mode ≠ .read →
    exec (.dmaToRam r f l) s = .next { s with
      events := s.events ++ [.diag (.dmaToRamMode s.mode)], returned := some Config.dmaCost }

/-- DMA_FROM_RAM (R110 to R112): in Write mode it latches `ram_addr` and moves no byte; in any other it reports. That
the flash address and the length have no effect is the spec's own decision D27. -/
def Obligations.DmaFromRamLatchesSource : Prop :=
  ∀ (s : State) (r f l : Word),
    (s.mode = .write → exec (.dmaFromRam r f l) s =
      .next { s with writePointer := r, returned := some Config.dmaCost }) ∧
    (s.mode ≠ .write → exec (.dmaFromRam r f l) s = .next { s with
      events := s.events ++ [.diag (.dmaFromRamMode s.mode)], returned := some Config.dmaCost })

/-- Every DMA transaction that does not fault returns the one constant, whatever the mode, the operands and what it
did (R105). -/
def Obligations.DmaReturnsFixedCost : Prop :=
  ∀ (s t : State) (r f l : Word),
    exec (.dmaToRam r f l) s = .next t ∨ exec (.dmaFromRam r f l) s = .next t →
    t.returned = some Config.dmaCost

/-- A DMA_TO_RAM writes RAM, reports or returns, and changes no device field (R106); repeated, it gives the same RAM
bytes (20_memory.md R52). -/
def Obligations.DmaToRamIsIdempotent : Prop :=
  ∀ (s t : State) (r f l : Word), exec (.dmaToRam r f l) s = .next t →
    t = { s with ram := t.ram, events := t.events, returned := t.returned } ∧
    ∃ u, exec (.dmaToRam r f l) t = .next u ∧ ∀ a, u.ramByte a = t.ramByte a

/-! ## Lifecycle (70_reset_and_hazards.md) -/

/-- INITIALIZE (R133) binds the handle, over any earlier binding, and touches nothing else. Rebinding is the
spec's own decision D25. -/
def Obligations.InitializeBindsHandle : Prop :=
  ∀ (s : State) (h : Nat), exec (.initializeStorage h) s = .next { s with storage := .bound h, returned := none }

/-- POWER_ON (R134) writes the four fields and nothing else. That the binding and both buffers are not touched is an
inference the spec marks as its own (D2). -/
def Obligations.PowerOnResetsFourFields : Prop :=
  ∀ s : State, exec .powerOn s = .next { s with
    mode := .idle, status := 0#64, eraseOffset := 0#32, writePointer := 0#32, returned := none }

/-- POWER_ON is idempotent, independent of INITIALIZE, and its result does not depend on the prior state (R135). -/
def Obligations.PowerOnIdempotentAndIndependent : Prop :=
  (∀ s : State, execAll [.powerOn, .powerOn] s = exec .powerOn s) ∧
  (∀ (s : State) (h : Nat),
    execAll [.powerOn, .initializeStorage h] s = execAll [.initializeStorage h, .powerOn] s) ∧
  ∀ s s' t t' : State, exec .powerOn s = .next t → exec .powerOn s' = .next t' →
    t.mode = t'.mode ∧ t.status = t'.status ∧ t.eraseOffset = t'.eraseOffset ∧ t.writePointer = t'.writePointer

/-- FORMAT (R136): every byte of the named buffer is 0xFF, every other byte of the backing memory is as before, no
field changes and no Save is emitted. How a buffer is named (log 25), and that the buffers of other handles do not
overlap it (log 9), are the model's choice. -/
def Obligations.FormatFillsBuffer : Prop :=
  ∀ (s : State) (b : Nat), ∃ m : Memory, exec (.format b) s = .next { s with store := m, returned := none } ∧
    (∀ p < 0x20000, Memory.read storeUnlisted m (bufferAddress b p) = 0xFF#8) ∧
    (∀ a, (∀ p < 0x20000, a ≠ bufferAddress b p) →
      Memory.read storeUnlisted m a = Memory.read storeUnlisted s.store a)

/-- The reset state has the values of R134 and storage unbound (R132), and it is what POWER_ON makes of the state
before the first POWER_ON. The other fields of both states are the model's choice (log 5, 10). -/
def Obligations.ResetIsPowerOnFromCold : Prop :=
  State.reset.mode = .idle ∧ State.reset.status = 0#64 ∧ State.reset.eraseOffset = 0#32 ∧
  State.reset.writePointer = 0#32 ∧ State.reset.storage = .unbound ∧
  exec .powerOn State.cold = .next State.reset

/-! ## The numbers of modes and the adapter -/

/-- The numbers of the modes (10_state.md R20) and the codes and information of the diagnostics (60_exceptions.md R115),
the spec's own decisions D14 and D10: five modes have names, every number is the number of one mode (log 11), and each
diagnostic has its code and records the word, the address or the mode's number. -/
def Obligations.ModeAndDiagnosticNumbers : Prop :=
  Mode.idle.code = 0 ∧ Mode.erase.code = 1 ∧ Mode.write.code = 2 ∧ Mode.read.code = 3 ∧ Mode.status.code = 4 ∧
  (∀ m : Mode, Mode.ofCode m.code = m) ∧ (∀ n : Nat, (Mode.ofCode n).code = n) ∧
  (∀ w : Word,
    (Diag.unknownCommand w).code = 1 ∧ (Diag.unknownCommand w).info = w.toNat ∧
    (Diag.badStatusReadAddr w).code = 2 ∧ (Diag.badStatusReadAddr w).info = w.toNat ∧
    (Diag.badCommandWriteAddr w).code = 3 ∧ (Diag.badCommandWriteAddr w).info = w.toNat) ∧
  ∀ m : Mode,
    (Diag.dmaToRamMode m).code = 4 ∧ (Diag.dmaToRamMode m).info = m.code ∧
    (Diag.dmaFromRamMode m).code = 5 ∧ (Diag.dmaFromRamMode m).info = m.code ∧
    (Diag.execUnknownMode m).code = 6 ∧ (Diag.execUnknownMode m).info = m.code

/-- With the adapter every 4-byte group is stored reversed: logical byte 4k + j stands at physical 4k + 3 - j
(20_memory.md R46). The mask 3 is the spec's own decision D5 (log 14). -/
def Obligations.AdapterReversesGroups : Prop :=
  ∀ k j : Nat, j < 4 → phys (4 * k + j) = 4 * k + (3 - j)

/-! ## Rules about the whole machine -/

/-- The only writers of `mode`, each of which writes its value (10_state.md R21): a transaction that carries out none
of them leaves the mode as it is, and one that carries out a listed operation leaves that operation's mode. -/
def Obligations.OnlyListedRulesWriteMode : Prop :=
  ∀ (i : Instr) (s t : State), exec i s = .next t →
    (t.mode = s.mode ∧ (∀ p, carriedOut i ≠ some (.eraseOffset p)) ∧
      carriedOut i ∉ [some .eraseMode, some .writeMode, some .execute, some .statusMode, some .readMode,
        some .powerOn]) ∨
    (carriedOut i = some .eraseMode ∧ t.mode = .erase) ∨
    (∃ p, carriedOut i = some (.eraseOffset p) ∧ t.mode = .erase) ∨
    (carriedOut i = some .writeMode ∧ t.mode = .write) ∨ (carriedOut i = some .execute ∧ t.mode = .idle) ∨
    (carriedOut i = some .statusMode ∧ t.mode = .status) ∨ (carriedOut i = some .readMode ∧ t.mode = .read) ∨
    (i = .powerOn ∧ t.mode = .idle)

/-- The only writers of `status`, each of which writes its value (10_state.md R23): a transaction that carries out
none of them leaves the latch as it is, and one that carries out a listed operation leaves that operation's value. -/
def Obligations.OnlyListedRulesWriteStatus : Prop :=
  ∀ (i : Instr) (s t : State), exec i s = .next t →
    (t.status = s.status ∧ (∀ p, carriedOut i ≠ some (.eraseOffset p)) ∧
      carriedOut i ∉ [some .eraseMode, some .statusMode, some .readMode, some .powerOn]) ∨
    (carriedOut i = some .eraseMode ∧ t.status = statusEraseMode) ∨
    (∃ p, carriedOut i = some (.eraseOffset p) ∧ t.status = statusErasePending) ∨
    (carriedOut i = some .statusMode ∧ t.status = statusStatusMode) ∨
    (carriedOut i = some .readMode ∧ t.status = statusReadMode) ∨ (i = .powerOn ∧ t.status = 0#64)

/-- The only writers of `erase_offset`, and what they write (10_state.md R25). That an execute keeps it is an
inference the spec marks as its own. -/
def Obligations.OnlyListedRulesWriteEraseOffset : Prop :=
  ∀ (i : Instr) (s t : State), exec i s = .next t →
    t.eraseOffset = s.eraseOffset ∨
    (∃ p : BitVec 16, (carriedOut i = some (.eraseSetup p) ∨ carriedOut i = some (.eraseOffset p)) ∧
      t.eraseOffset.toNat = p.toNat * 128) ∨
    (i = .powerOn ∧ t.eraseOffset = 0#32)

/-- The only writers of `write_pointer`, and what they write (10_state.md R27); and only INITIALIZE writes the
binding (R16, R28). -/
def Obligations.OnlyListedRulesWritePointerAndBinding : Prop :=
  ∀ (i : Instr) (s t : State), exec i s = .next t →
    (t.writePointer = s.writePointer ∨
      (∃ r f l, i = .dmaFromRam r f l ∧ s.mode = .write ∧ t.writePointer = r) ∨
      (i = .powerOn ∧ t.writePointer = 0#32)) ∧
    (t.storage = s.storage ∨ ∃ h, i = .initializeStorage h ∧ t.storage = .bound h)

/-- RAM changes only in a DMA_TO_RAM in Status or Read mode; no transaction changes the size of RAM, and none but the
step takes from the port. -/
def Obligations.OnlyDmaToRamWritesRam : Prop :=
  ∀ (i : Instr) (s t : State), exec i s = .next t →
    (t.ram = s.ram ∨ ∃ r f l, i = .dmaToRam r f l ∧ (s.mode = .status ∨ s.mode = .read)) ∧
    t.ramSize = s.ramSize ∧ t.port = s.port

/-- At most one event a transaction, so never a diagnostic and a Save, and earlier events stay (60_exceptions.md
R120, an inference the spec marks as its own). -/
def Obligations.AtMostOneEvent : Prop :=
  ∀ (i : Instr) (s t : State), exec i s = .next t → t.events = s.events ∨ ∃ e, t.events = s.events ++ [e]

/-- A byte of the backing memory changes only at an EXECUTE in Erase or Write mode, which emits a Save, or at FORMAT,
which emits nothing; and only such an EXECUTE emits a Save (70_reset_and_hazards.md R150, an inference the
spec marks as its own). -/
def Obligations.StoreChangesOnlyWithSave : Prop :=
  ∀ (i : Instr) (s t : State), exec i s = .next t →
    (t.store = s.store ∨
      (carriedOut i = some .execute ∧ (s.mode = .erase ∨ s.mode = .write) ∧ t.events = s.events ++ [.save]) ∨
      (∃ b, i = .format b ∧ t.events = s.events)) ∧
    (t.events = s.events ++ [.save] → carriedOut i = some .execute ∧ (s.mode = .erase ∨ s.mode = .write))

/-- No transaction reads the event history (10_state.md R34): an older history in front of it stays in front and
changes nothing else. -/
def Obligations.HistoryIsNotRead : Prop :=
  ∀ (i : Instr) (s : State) (old : List Event),
    exec i { s with events := old ++ s.events } =
      andThen (exec i s) (fun t => .next { t with events := old ++ t.events })

/-- The bytes of RAM decide neither whether a transaction completes, nor which fault it is, nor any field, event or
returned value; they reach the backing memory alone, and RAM itself. -/
def Obligations.RamBytesReachOnlyBuffers : Prop :=
  ∀ (i : Instr) (s : State) (m : Memory),
    (∀ t, exec i s = .next t →
      ∃ t', exec i { s with ram := m } = .next t' ∧ t' = { t with ram := t'.ram, store := t'.store }) ∧
    ∀ f, exec i s = .fault f → exec i { s with ram := m } = .fault f

/-- Every transaction completes unless it is one of the faults of 60_exceptions.md R123, and then it is a fault: no
transaction is refused. -/
def Obligations.CompletesUnlessListedFault : Prop :=
  ∀ (i : Instr) (s : State),
    ((carriedOut i = some .execute → s.executeReady) ∧ (∀ r f l, i = .dmaToRam r f l → s.dmaReady r f l) →
      ∃ t, exec i s = .next t) ∧
    (¬ ((carriedOut i = some .execute → s.executeReady) ∧ (∀ r f l, i = .dmaToRam r f l → s.dmaReady r f l)) →
      ∃ f, exec i s = .fault f)

/-! ## Invariants -/

/-- The invariants of 10_state.md R32 (inferences the spec marks as its own) are kept by every step, from every state
that has them. -/
def Obligations.DeviceInvariantKept : Prop :=
  ∀ s t : State, s.deviceInv → step s = .next t → t.deviceInv

/-- Both memories keep their canonical form through every step. -/
def Obligations.CanonicalMemoriesKept : Prop :=
  ∀ s t : State, s.memoryInv → step s = .next t → t.memoryInv

/-- RAM keeps its size and lists no byte outside it, through every run of any length. The host writes RAM in
no step (log 19). -/
def Obligations.RamStaysInsideItsSize : Prop :=
  ∀ (k : Nat) (s t : State), s.ramInv → steps k s = .next t → t.ramInv ∧ t.ramSize = s.ramSize

/-- The reset state has every invariant. Its memories and its RAM size are the model's choice (log 6, 7, 8). -/
def Obligations.ResetHasInvariants : Prop :=
  State.reset.deviceInv ∧ State.reset.memoryInv ∧ State.reset.ramInv

/-! ## Sequences (30_encoding.md R76, 70_reset_and_hazards.md) -/

/-- After any EXECUTE a DMA_TO_RAM moves nothing and reports, the mode being Idle (R142, an inference the
spec marks as its own). -/
def Obligations.DmaAfterExecuteMovesNothing : Prop :=
  ∀ (s t : State) (r f l : Word), exec .execute s = .next t →
    exec (.dmaToRam r f l) t = .next { t with
      events := t.events ++ [.diag (.dmaToRamMode .idle)], returned := some Config.dmaCost }

/-- In Write mode ERASE_OFFSET cancels the pending program: the EXECUTE after it erases the page and programs nothing
(R140). The host is taken to write neither buffer in between (log 19). -/
def Obligations.EraseOffsetCancelsProgram : Prop :=
  ∀ (s : State) (h : Nat) (page : BitVec 16), s.mode = .write → s.storage = .bound h → page.toNat < 1024 →
    ∃ t, execAll [.eraseOffset page, .execute] s = .next t ∧ t.mode = .idle ∧ t.writePointer = s.writePointer ∧
      t.events = s.events ++ [.save] ∧
      ∀ l < 0x20000, t.storeLogical h l =
        if page.toNat * 128 ≤ l ∧ l < page.toNat * 128 + 128 then 0xFF#8 else s.storeLogical h l

/-- ERASE_PAGE (30_encoding.md R76) and a read of the page: the RAM read into is all 0xFF, and every other page of the
buffer is untouched. The host is taken to write neither buffer in between (log 19). -/
def Obligations.EraseThenReadGivesErasedPage : Prop :=
  ∀ (s : State) (h : Nat) (page : BitVec 16) (r f : Word), s.storage = .bound h → page.toNat < 1024 →
    r.toNat + 128 ≤ s.ramSize → f.toNat % 0x10000 = 64 * page.toNat →
    ∃ t, execAll [.eraseSetup page, .eraseMode, .execute, .readMode, .dmaToRam r f 0x7F#32] s = .next t ∧
      (∀ i < 128, t.ramLogical (r.toNat + i) = 0xFF#8) ∧
      ∀ l < 0x20000, ¬ (page.toNat * 128 ≤ l ∧ l < page.toNat * 128 + 128) →
        t.storeLogical h l = s.storeLogical h l

/-- The round trip (70_reset_and_hazards.md R146): PROGRAM_PAGE from RAM base w, then a read of the page to RAM base r,
returns the bytes that were written, in the logical view, whatever the alignment of w and r; the rest of RAM and
of the buffer is as before. The host is taken to write neither buffer in between (log 19). -/
def Obligations.ProgramThenReadRoundTrip : Prop :=
  ∀ (s : State) (h : Nat) (page : BitVec 16) (w r f g : Word), s.storage = .bound h → page.toNat < 1024 →
    w.toNat + 128 ≤ s.ramSize → r.toNat + 128 ≤ s.ramSize → f.toNat % 0x10000 = 64 * page.toNat →
    ∃ t, execAll [.eraseSetup page, .writeMode, .dmaFromRam w g 0x7F#32, .execute, .readMode,
        .dmaToRam r f 0x7F#32] s = .next t ∧
      (∀ l, t.ramLogical l =
        if r.toNat ≤ l ∧ l < r.toNat + 128 then s.ramLogical (w.toNat + (l - r.toNat)) else s.ramLogical l) ∧
      (∀ l < 0x20000, t.storeLogical h l =
        if page.toNat * 128 ≤ l ∧ l < page.toNat * 128 + 128 then s.ramLogical (w.toNat + (l - page.toNat * 128))
        else s.storeLogical h l) ∧
      t.mode = .read ∧ t.events = s.events ++ [.save] ∧ t.returned = some Config.dmaCost

/-- The program bytes are those in RAM at the EXECUTE (20_memory.md R59): whatever the host has put in RAM since the
DMA_FROM_RAM is what the page gets. -/
def Obligations.ProgramUsesRamAtExecute : Prop :=
  ∀ (s t u : State) (h : Nat) (r f l : Word) (m : Memory), s.mode = .write → s.storage = .bound h →
    exec (.dmaFromRam r f l) s = .next t → exec .execute { t with ram := m } = .next u →
    ∀ i < 128, u.storeLogical h (s.eraseOffset.toNat + i) = Memory.read ramUnlisted m (phys (r.toNat + i))

/-! ## The launch argument (70_reset_and_hazards.md R137) -/

/-- The initial contents of storage (70_reset_and_hazards.md R137; the launch argument is the spec's own decision D23,
how a handle is named is log 9): with a persisted artifact of a whole buffer as the launch argument, after INITIALIZE and
POWER_ON, the set-up of R138, STORE is that artifact byte by byte, every other byte of the backing memory is as before,
and the canonical form is kept. -/
def Obligations.LaunchArgumentIsInitialStore : Prop :=
  ∀ (s : State) (h : Nat) (artifact : List Byte), artifact.length = 0x20000 → ∃ m : Memory,
    execAll [.initializeStorage h, .powerOn] (s.launch [(h, artifact)]) = .next { s with
      mode := .idle, status := 0#64, eraseOffset := 0#32, writePointer := 0#32, storage := .bound h, store := m,
      returned := none } ∧
    (∀ p < 0x20000, artifact[p]? = some (Memory.read storeUnlisted m (bufferAddress h p))) ∧
    (∀ a, (∀ p < 0x20000, a ≠ bufferAddress h p) →
      Memory.read storeUnlisted m a = Memory.read storeUnlisted s.store a) ∧
    (Memory.wf storeUnlisted s.store → Memory.wf storeUnlisted m)
end

