-- ==== Sys2Proof/Laws/Encoding.lean ====
section
/-! SUPPORT. The laws of the fields of a command word, and the reads of both decoders. -/

namespace Sys2Proof

theorem commandWord_toNat (o : BitVec 8) (p : BitVec 16) :
    (commandWord o p).toNat = o.toNat * 2 ^ 24 + p.toNat := by
  have hp := p.isLt
  simp only [commandWord, BitVec.toNat_append, BitVec.toNat_ofNat, Nat.zero_mod]
  rw [Nat.zero_shiftLeft, Nat.zero_or, ← Nat.shiftLeft_add_eq_or_of_lt (by omega : p.toNat < 2 ^ (8 + 16)),
    Nat.shiftLeft_eq]

theorem opcodeOf_toNat (w : Word) : (opcodeOf w).toNat = w.toNat / 2 ^ 24 := by
  have := w.isLt
  simp only [opcodeOf, BitVec.extractLsb'_toNat, Nat.shiftRight_eq_div_pow]
  omega

theorem pageOf_toNat (w : Word) : (pageOf w).toNat = w.toNat % 2 ^ 16 := by
  simp [pageOf, BitVec.extractLsb'_toNat]

@[simp] theorem opcodeOf_commandWord (o : BitVec 8) (p : BitVec 16) : opcodeOf (commandWord o p) = o := by
  have hp := p.isLt
  rw [← BitVec.toNat_inj, opcodeOf_toNat, commandWord_toNat]
  omega

@[simp] theorem pageOf_commandWord (o : BitVec 8) (p : BitVec 16) : pageOf (commandWord o p) = p := by
  have hp := p.isLt
  rw [← BitVec.toNat_inj, pageOf_toNat, commandWord_toNat]
  omega

/-- The bits [23:16] of a built command word are zero. -/
theorem commandWord_middle (o : BitVec 8) (p : BitVec 16) : (commandWord o p).extractLsb' 16 8 = 0#8 := by
  have hp := p.isLt
  rw [← BitVec.toNat_inj, BitVec.extractLsb'_toNat, commandWord_toNat, Nat.shiftRight_eq_div_pow, BitVec.toNat_ofNat]
  omega

/-- A command word is its opcode, its middle byte and its page. -/
theorem commandWord_eq (w : Word) (h : w.extractLsb' 16 8 = 0#8) : commandWord (opcodeOf w) (pageOf w) = w := by
  have hw := w.isLt
  have h := congrArg BitVec.toNat h
  rw [BitVec.extractLsb'_toNat, Nat.shiftRight_eq_div_pow, BitVec.toNat_ofNat] at h
  rw [← BitVec.toNat_inj, commandWord_toNat, opcodeOf_toNat, pageOf_toNat]
  omega

/-- Everything the command decoder can answer: a row of 30_encoding.md R62 whose opcode the word has. -/
theorem decodeCommand_cases {w : Word} {i : Instr} (h : decodeCommand w = some i) :
    (opcodeOf w = opcEraseSetup ∧ i = .eraseSetup (pageOf w)) ∨ (opcodeOf w = opcEraseMode ∧ i = .eraseMode) ∨
    (opcodeOf w = opcEraseOffset ∧ i = .eraseOffset (pageOf w)) ∨ (opcodeOf w = opcWriteMode ∧ i = .writeMode) ∨
    (opcodeOf w = opcExecute ∧ i = .execute) ∨ (opcodeOf w = opcStatusMode ∧ i = .statusMode) ∨
    (opcodeOf w = opcReadMode ∧ i = .readMode) := by
  unfold decodeCommand at h
  repeat' split at h
  all_goals first
    | (obtain rfl := Option.some.inj h; tauto)
    | exact absurd h (by simp)

/-- The unrecognized space is every opcode outside the seven (30_encoding.md R66). -/
theorem decodeCommand_none {w : Word} : decodeCommand w = none ↔
    opcodeOf w ≠ opcEraseSetup ∧ opcodeOf w ≠ opcEraseMode ∧ opcodeOf w ≠ opcEraseOffset ∧
    opcodeOf w ≠ opcWriteMode ∧ opcodeOf w ≠ opcExecute ∧ opcodeOf w ≠ opcStatusMode ∧ opcodeOf w ≠ opcReadMode := by
  unfold decodeCommand
  repeat' split
  all_goals simp_all

end Sys2Proof
end

