-- ==== Sys2Proof/Laws/Memory.lean ====
section
/-! SUPPORT. The laws of the byte memory: what a read gives after a write, and that every operation keeps the
canonical form. The read laws hold of every list, canonical or not. -/

namespace Sys2Proof.Machine

/-! ## Reading -/

@[simp] theorem Memory.read_nil (u : Byte) (a : Nat) : Memory.read u [] a = u := rfl

@[simp] theorem Memory.read_cons (u : Byte) (c : Host.Cell) (m : Memory) (a : Nat) :
    Memory.read u (c :: m) a = if c.1 = a then c.2 else Memory.read u m a := rfl

theorem Memory.read_filter (u : Byte) (p : Nat → Bool) (m : Memory) (a : Nat) :
    Memory.read u (m.filter fun c => p c.1) a = if p a then Memory.read u m a else u := by
  induction m with
  | nil => simp
  | cons c m ih => by_cases h : c.1 = a <;> by_cases hp : p c.1 <;> simp_all

theorem Memory.read_drop (u : Byte) (m : Memory) (a b : Nat) :
    Memory.read u (Memory.drop m a) b = if b = a then u else Memory.read u m b := by
  unfold Memory.drop
  rw [Memory.read_filter u (fun k => decide (k ≠ a))]
  by_cases h : b = a <;> simp [h]

theorem Memory.drop_free (m : Memory) (a : Nat) : ∀ c ∈ Memory.drop m a, c.1 ≠ a := by
  simp [Memory.drop]

/-- A cell inserted where its address is free is read at that address and nowhere else. -/
theorem Memory.read_insert (u : Byte) (c : Host.Cell) (m : Memory) (a : Nat) (free : ∀ d ∈ m, d.1 ≠ c.1) :
    Memory.read u (Memory.insert c m) a = if a = c.1 then c.2 else Memory.read u m a := by
  induction m with
  | nil => simp [Memory.insert, eq_comm]
  | cons d m ih =>
    have hd : d.1 ≠ c.1 := free d (by simp)
    have ih := ih fun e he => free e (by simp [he])
    unfold Memory.insert
    split
    · by_cases ha : a = c.1 <;> simp [ha, eq_comm]
    · by_cases hda : d.1 = a
      · have : a ≠ c.1 := fun h => hd (hda.trans h)
        simp [hda, this]
      · simp [hda, ih]

/-- A read after a write: the value written at its address, and every other address as before. -/
theorem Memory.read_write (u : Byte) (m : Memory) (a : Nat) (b : Byte) (x : Nat) :
    Memory.read u (Memory.write u m a b) x = if x = a then b else Memory.read u m x := by
  unfold Memory.write
  split
  · next h => simp [Memory.read_drop, h]
  · rw [Memory.read_insert u _ _ _ (Memory.drop_free m a), Memory.read_drop]
    split <;> simp_all

@[simp] theorem Memory.read_write_same (u : Byte) (m : Memory) (a : Nat) (b : Byte) :
    Memory.read u (Memory.write u m a b) a = b := by simp [Memory.read_write]

theorem Memory.read_write_other (u : Byte) (m : Memory) {a x : Nat} (b : Byte) (h : x ≠ a) :
    Memory.read u (Memory.write u m a b) x = Memory.read u m x := by simp [Memory.read_write, h]

/-- A loop of writes leaves alone every address it does not write. -/
theorem Memory.read_writeLoop_other (u : Byte) (m : Memory) (addr : Nat → Nat) (f : Nat → Byte) (n x : Nat)
    (h : ∀ i < n, addr i ≠ x) : Memory.read u (Memory.writeLoop u m addr f n) x = Memory.read u m x := by
  induction n with
  | zero => rfl
  | succ n ih =>
    rw [Memory.writeLoop, Memory.read_write_other u _ _ (h n (by omega)).symm]
    exact ih fun i hi => h i (by omega)

/-- A loop of writes to distinct addresses leaves at each the value written there. -/
theorem Memory.read_writeLoop (u : Byte) (m : Memory) (addr : Nat → Nat) (f : Nat → Byte) (n i : Nat) (hi : i < n)
    (inj : ∀ j k, addr j = addr k → j = k) :
    Memory.read u (Memory.writeLoop u m addr f n) (addr i) = f i := by
  induction n with
  | zero => omega
  | succ n ih =>
    rw [Memory.writeLoop, Memory.read_write]
    split
    · next h => rw [inj _ _ h]
    · next h => exact ih (by have : i ≠ n := fun e => h (by rw [e]); omega)

/-- A cleared range reads as nothing listed; outside it every byte is as before. -/
theorem Memory.read_clearRange (u : Byte) (m : Memory) (lo n x : Nat) :
    Memory.read u (Memory.clearRange m lo n) x = if lo ≤ x ∧ x < lo + n then u else Memory.read u m x := by
  unfold Memory.clearRange
  rw [Memory.read_filter u (fun k => decide (¬ (lo ≤ k ∧ k < lo + n)))]
  by_cases h : lo ≤ x ∧ x < lo + n <;> simp [h]

/-! ## The canonical form -/

theorem Memory.wf_nil (u : Byte) : Memory.wf u [] := by simp [Memory.wf]

theorem Memory.wf_filter {u : Byte} {m : Memory} (p : Host.Cell → Bool) (h : Memory.wf u m) :
    Memory.wf u (m.filter p) :=
  ⟨h.1.filter p, fun c hc => h.2 c (List.mem_of_mem_filter hc)⟩

theorem Memory.wf_drop {u : Byte} {m : Memory} (a : Nat) (h : Memory.wf u m) : Memory.wf u (Memory.drop m a) :=
  Memory.wf_filter _ h

theorem Memory.wf_clearRange {u : Byte} {m : Memory} (lo n : Nat) (h : Memory.wf u m) :
    Memory.wf u (Memory.clearRange m lo n) :=
  Memory.wf_filter _ h

theorem Memory.mem_insert (c d : Host.Cell) (m : Memory) : d ∈ Memory.insert c m ↔ d = c ∨ d ∈ m := by
  induction m with
  | nil => simp [Memory.insert]
  | cons e m ih =>
    unfold Memory.insert
    split
    · simp
    · simp [ih]; tauto

theorem Memory.wf_insert {u : Byte} {m : Memory} (c : Host.Cell) (hc : c.2 ≠ u) (free : ∀ d ∈ m, d.1 ≠ c.1)
    (h : Memory.wf u m) : Memory.wf u (Memory.insert c m) := by
  obtain ⟨sorted, listed⟩ := h
  refine ⟨?_, fun d hd => ?_⟩
  · induction m with
    | nil => simp [Memory.insert]
    | cons e m ih =>
      obtain ⟨below, rest⟩ := List.pairwise_cons.mp sorted
      unfold Memory.insert
      split
      · next hlt =>
        refine List.pairwise_cons.mpr ⟨fun d hd => ?_, sorted⟩
        rcases List.mem_cons.mp hd with rfl | hd
        · exact hlt
        · exact hlt.trans (below d hd)
      · next hge =>
        refine List.pairwise_cons.mpr
          ⟨fun d hd => ?_, ih (fun d hd => free d (by simp [hd])) rest fun d hd => listed d (by simp [hd])⟩
        rcases (Memory.mem_insert c d m).mp hd with rfl | hd
        · have := free e (by simp); omega
        · exact below d hd
  · rcases (Memory.mem_insert c d m).mp hd with rfl | hd
    · exact hc
    · exact listed d hd

theorem Memory.wf_write {u : Byte} {m : Memory} (a : Nat) (b : Byte) (h : Memory.wf u m) :
    Memory.wf u (Memory.write u m a b) := by
  unfold Memory.write
  split
  · exact Memory.wf_drop a h
  · next hb => exact Memory.wf_insert _ hb (Memory.drop_free m a) (Memory.wf_drop a h)

theorem Memory.wf_writeLoop {u : Byte} {m : Memory} (addr : Nat → Nat) (f : Nat → Byte) (n : Nat)
    (h : Memory.wf u m) : Memory.wf u (Memory.writeLoop u m addr f n) := by
  induction n with
  | zero => exact h
  | succ n ih => exact Memory.wf_write _ _ ih

/-- In a canonical memory an address below the first cell is not listed. -/
theorem Memory.read_below (u : Byte) (m : Memory) (a : Nat) (h : ∀ c ∈ m, a < c.1) : Memory.read u m a = u := by
  induction m with
  | nil => rfl
  | cons c m ih =>
    have := h c (by simp)
    rw [Memory.read_cons, if_neg (by omega), ih fun d hd => h d (by simp [hd])]

/-- Canonical memories that read alike are equal data. -/
theorem Memory.ext_of_wf {u : Byte} {m m' : Memory} (h : Memory.wf u m) (h' : Memory.wf u m')
    (reads : ∀ a, Memory.read u m a = Memory.read u m' a) : m = m' := by
  induction m generalizing m' with
  | nil =>
    cases m' with
    | nil => rfl
    | cons c m' => exact absurd (by simpa using (reads c.1).symm) (h'.2 c (by simp))
  | cons c m ih =>
    cases m' with
    | nil => exact absurd (by simpa using reads c.1) (h.2 c (by simp))
    | cons d m' =>
      obtain ⟨below, rest⟩ := List.pairwise_cons.mp h.1
      obtain ⟨below', rest'⟩ := List.pairwise_cons.mp h'.1
      have hne := h.2 c (by simp)
      have hne' := h'.2 d (by simp)
      have key : c.1 = d.1 := by
        rcases Nat.lt_trichotomy c.1 d.1 with hlt | heq | hgt
        · have low := Memory.read_below u (d :: m') c.1 (by
            intro e he; rcases List.mem_cons.mp he with rfl | he
            · exact hlt
            · exact hlt.trans (below' e he))
          exact absurd (by simpa [low] using reads c.1) hne
        · exact heq
        · have low := Memory.read_below u (c :: m) d.1 (by
            intro e he; rcases List.mem_cons.mp he with rfl | he
            · exact hgt
            · exact hgt.trans (below e he))
          exact absurd (by simpa [low] using (reads d.1).symm) hne'
      have value : c.2 = d.2 := by simpa [key] using reads c.1
      have tails : m = m' := by
        refine ih ⟨rest, fun e he => h.2 e (by simp [he])⟩ ⟨rest', fun e he => h'.2 e (by simp [he])⟩ fun a => ?_
        by_cases ha : c.1 = a
        · subst ha
          rw [Memory.read_below u m _ below, Memory.read_below u m' _ fun e he => key ▸ below' e he]
        · have := reads a
          rwa [Memory.read_cons, Memory.read_cons, if_neg ha, if_neg (key ▸ ha)] at this
      rw [tails, Prod.ext key value]

/-! ## The addresses a memory lists -/

theorem Memory.inside_write {u : Byte} {m : Memory} {N a : Nat} (b : Byte) (ha : a < N) (h : ∀ c ∈ m, c.1 < N) :
    ∀ c ∈ Memory.write u m a b, c.1 < N := by
  intro c hc
  unfold Memory.write at hc
  split at hc
  · exact h c (List.mem_of_mem_filter hc)
  · rcases (Memory.mem_insert _ c _).mp hc with rfl | hc
    · exact ha
    · exact h c (List.mem_of_mem_filter hc)

theorem Memory.inside_writeLoop {u : Byte} {m : Memory} {N : Nat} (addr : Nat → Nat) (f : Nat → Byte) (n : Nat)
    (ha : ∀ i < n, addr i < N) (h : ∀ c ∈ m, c.1 < N) : ∀ c ∈ Memory.writeLoop u m addr f n, c.1 < N := by
  induction n with
  | zero => exact h
  | succ n ih => exact Memory.inside_write _ (ha n (by omega)) (ih fun i hi => ha i (by omega))

end Sys2Proof.Machine
end

