-- ==== Sys2Proof/Laws/Operands.lean ====
section
/-! SUPPORT. The laws of the operand forms: the adapter is a permutation of each 4-byte group, and the bounds of
00_scope.md R7. -/

namespace Sys2Proof.Machine

/-! ## The byte-order adapter -/

@[simp] theorem phys_phys (l : Nat) : phys (phys l) = l := by simp [phys]

theorem phys_inj {l k : Nat} (h : phys l = phys k) : l = k := by
  simpa using congrArg phys h

@[simp] theorem phys_eq_phys {l k : Nat} : phys l = phys k ↔ l = k := ⟨phys_inj, congrArg phys⟩

theorem phys_eq_iff {l p : Nat} : phys l = p ↔ l = phys p :=
  ⟨fun h => by rw [← h, phys_phys], fun h => by rw [h, phys_phys]⟩

/-- The adapter stays within the aligned 4-byte group of its index (00_scope.md R5). -/
theorem phys_group (l : Nat) : phys l / 4 = l / 4 := by
  have := Nat.xor_div_two_pow (a := l) (b := swapMask) (n := 2)
  simpa [phys, swapMask] using this

/-- The place within the group depends on the place within the group alone. -/
theorem phys_place (l : Nat) : phys l % 4 = phys (l % 4) % 4 := by
  have h := Nat.xor_mod_two_pow (a := l) (b := swapMask) (n := 2)
  have h' := Nat.xor_mod_two_pow (a := l % 4) (b := swapMask) (n := 2)
  simp only [phys, show (2 : Nat) ^ 2 = 4 from rfl, Nat.mod_mod] at *
  omega

/-- An aligned base passes through the adapter. -/
theorem phys_add {base : Nat} (hb : base % 4 = 0) (j : Nat) : phys (base + j) = base + phys j := by
  have h := phys_group (base + j)
  have h' := phys_group j
  have p := phys_place (base + j)
  have p' := phys_place j
  rw [show (base + j) % 4 = j % 4 by omega] at p
  omega

/-- The adapter maps the index range of a buffer whose size is a multiple of 4 onto itself (00_scope.md R5). -/
theorem phys_lt {l size : Nat} (hsize : size % 4 = 0) : phys l < size ↔ l < size := by
  have := phys_group l
  omega

/-- The adapter maps a block of whole 4-byte groups onto itself. -/
theorem phys_mem_block {l base n : Nat} (hb : base % 4 = 0) (hn : n % 4 = 0) :
    (base ≤ phys l ∧ phys l < base + n) ↔ (base ≤ l ∧ l < base + n) := by
  have := phys_group l
  omega

theorem bufferAddress_inj_phys {h l k : Nat} (e : bufferAddress h (phys l) = bufferAddress h (phys k)) : l = k :=
  phys_inj (by simpa [bufferAddress] using e)

/-- Buffers of different handles do not overlap. -/
theorem bufferAddress_inj {h h' p p' : Nat} (hp : p < Config.flashramSize) (hp' : p' < Config.flashramSize)
    (e : bufferAddress h p = bufferAddress h' p') : h = h' ∧ p = p' := by
  simp only [bufferAddress, Config.flashramSize] at *
  omega

/-! ## Offsets, counts and addresses -/

@[simp] theorem pageOffset_toNat (page : BitVec 16) : (pageOffset page).toNat = page.toNat * 128 := by
  have := page.isLt
  simp only [pageOffset, Config.pageSize, BitVec.toNat_ofNat]
  omega

/-- The page offset is aligned and at most 0x7FFF80 (00_scope.md R7, 10_state.md R32). -/
theorem pageOffset_bounds (page : BitVec 16) :
    (pageOffset page).toNat % 128 = 0 ∧ (pageOffset page).toNat ≤ 0x7FFF80 := by
  have := page.isLt
  rw [pageOffset_toNat]
  omega

/-- `count` is 1 to 0x01000000 (00_scope.md R7). -/
theorem dmaCount_bounds (length : Word) : 1 ≤ dmaCount length ∧ dmaCount length ≤ 0x01000000 := by
  have : (length &&& 0x00FFFFFF#32).toNat ≤ 0x00FFFFFF := by
    rw [BitVec.toNat_and]; exact Nat.and_le_right
  unfold dmaCount
  omega

theorem dmaCount_toNat (length : Word) : dmaCount length = length.toNat % 0x01000000 + 1 := by
  rw [dmaCount, BitVec.toNat_and]
  exact congrArg (· + 1) (Nat.and_two_pow_sub_one_eq_mod length.toNat 24)

/-- `src_base` is even and at most 0x1FFFE (00_scope.md R7, 20_memory.md R55). -/
theorem dmaSource_bounds (flashAddr : Word) : dmaSource flashAddr % 2 = 0 ∧ dmaSource flashAddr ≤ 0x1FFFE := by
  have : (flashAddr &&& 0x0000FFFF#32).toNat ≤ 0xFFFF := by
    rw [BitVec.toNat_and]; exact Nat.and_le_right
  unfold dmaSource
  omega

theorem dmaSource_toNat (flashAddr : Word) : dmaSource flashAddr = flashAddr.toNat % 0x10000 * 2 := by
  rw [dmaSource, BitVec.toNat_and]
  exact congrArg (· * 2) (Nat.and_two_pow_sub_one_eq_mod flashAddr.toNat 16)

theorem addressValid_iff (address : Word) : addressValid address = true ↔ address.toNat % 0x10000 = 0 := by
  have e : (address &&& 0x0000FFFF#32).toNat = address.toNat % 0x10000 := by
    rw [BitVec.toNat_and]; exact Nat.and_two_pow_sub_one_eq_mod address.toNat 16
  rw [addressValid, beq_iff_eq, ← BitVec.toNat_inj, e]
  rfl

end Sys2Proof.Machine
end

