-- ==== Sys2Proof/Laws/State.lean ====
section
/-! SUPPORT. One lemma for each field under each update of the state, so that no proof unfolds a record update. -/

namespace Sys2Proof.Machine

@[simp] theorem State.setMode_mode (s : State) (v : Mode) : (s.setMode v).mode = v := rfl
@[simp] theorem State.setMode_status (s : State) (v : Mode) : (s.setMode v).status = s.status := rfl
@[simp] theorem State.setMode_eraseOffset (s : State) (v : Mode) : (s.setMode v).eraseOffset = s.eraseOffset := rfl
@[simp] theorem State.setMode_writePointer (s : State) (v : Mode) : (s.setMode v).writePointer = s.writePointer := rfl
@[simp] theorem State.setMode_storage (s : State) (v : Mode) : (s.setMode v).storage = s.storage := rfl
@[simp] theorem State.setMode_store (s : State) (v : Mode) : (s.setMode v).store = s.store := rfl
@[simp] theorem State.setMode_ram (s : State) (v : Mode) : (s.setMode v).ram = s.ram := rfl
@[simp] theorem State.setMode_ramSize (s : State) (v : Mode) : (s.setMode v).ramSize = s.ramSize := rfl
@[simp] theorem State.setMode_events (s : State) (v : Mode) : (s.setMode v).events = s.events := rfl
@[simp] theorem State.setMode_returned (s : State) (v : Mode) : (s.setMode v).returned = s.returned := rfl
@[simp] theorem State.setMode_port (s : State) (v : Mode) : (s.setMode v).port = s.port := rfl
@[simp] theorem State.setMode_draws (s : State) (v : Mode) : (s.setMode v).draws = s.draws := rfl

@[simp] theorem State.setStatus_mode (s : State) (v : Latch) : (s.setStatus v).mode = s.mode := rfl
@[simp] theorem State.setStatus_status (s : State) (v : Latch) : (s.setStatus v).status = v := rfl
@[simp] theorem State.setStatus_eraseOffset (s : State) (v : Latch) :
    (s.setStatus v).eraseOffset = s.eraseOffset := rfl
@[simp] theorem State.setStatus_writePointer (s : State) (v : Latch) :
    (s.setStatus v).writePointer = s.writePointer := rfl
@[simp] theorem State.setStatus_storage (s : State) (v : Latch) : (s.setStatus v).storage = s.storage := rfl
@[simp] theorem State.setStatus_store (s : State) (v : Latch) : (s.setStatus v).store = s.store := rfl
@[simp] theorem State.setStatus_ram (s : State) (v : Latch) : (s.setStatus v).ram = s.ram := rfl
@[simp] theorem State.setStatus_ramSize (s : State) (v : Latch) : (s.setStatus v).ramSize = s.ramSize := rfl
@[simp] theorem State.setStatus_events (s : State) (v : Latch) : (s.setStatus v).events = s.events := rfl
@[simp] theorem State.setStatus_returned (s : State) (v : Latch) : (s.setStatus v).returned = s.returned := rfl
@[simp] theorem State.setStatus_port (s : State) (v : Latch) : (s.setStatus v).port = s.port := rfl
@[simp] theorem State.setStatus_draws (s : State) (v : Latch) : (s.setStatus v).draws = s.draws := rfl

@[simp] theorem State.setEraseOffset_mode (s : State) (v : Word) : (s.setEraseOffset v).mode = s.mode := rfl
@[simp] theorem State.setEraseOffset_status (s : State) (v : Word) : (s.setEraseOffset v).status = s.status := rfl
@[simp] theorem State.setEraseOffset_eraseOffset (s : State) (v : Word) : (s.setEraseOffset v).eraseOffset = v := rfl
@[simp] theorem State.setEraseOffset_writePointer (s : State) (v : Word) :
    (s.setEraseOffset v).writePointer = s.writePointer := rfl
@[simp] theorem State.setEraseOffset_storage (s : State) (v : Word) : (s.setEraseOffset v).storage = s.storage := rfl
@[simp] theorem State.setEraseOffset_store (s : State) (v : Word) : (s.setEraseOffset v).store = s.store := rfl
@[simp] theorem State.setEraseOffset_ram (s : State) (v : Word) : (s.setEraseOffset v).ram = s.ram := rfl
@[simp] theorem State.setEraseOffset_ramSize (s : State) (v : Word) : (s.setEraseOffset v).ramSize = s.ramSize := rfl
@[simp] theorem State.setEraseOffset_events (s : State) (v : Word) : (s.setEraseOffset v).events = s.events := rfl
@[simp] theorem State.setEraseOffset_returned (s : State) (v : Word) :
    (s.setEraseOffset v).returned = s.returned := rfl
@[simp] theorem State.setEraseOffset_port (s : State) (v : Word) : (s.setEraseOffset v).port = s.port := rfl
@[simp] theorem State.setEraseOffset_draws (s : State) (v : Word) : (s.setEraseOffset v).draws = s.draws := rfl

@[simp] theorem State.setWritePointer_mode (s : State) (v : Word) : (s.setWritePointer v).mode = s.mode := rfl
@[simp] theorem State.setWritePointer_status (s : State) (v : Word) : (s.setWritePointer v).status = s.status := rfl
@[simp] theorem State.setWritePointer_eraseOffset (s : State) (v : Word) :
    (s.setWritePointer v).eraseOffset = s.eraseOffset := rfl
@[simp] theorem State.setWritePointer_writePointer (s : State) (v : Word) :
    (s.setWritePointer v).writePointer = v := rfl
@[simp] theorem State.setWritePointer_storage (s : State) (v : Word) :
    (s.setWritePointer v).storage = s.storage := rfl
@[simp] theorem State.setWritePointer_store (s : State) (v : Word) : (s.setWritePointer v).store = s.store := rfl
@[simp] theorem State.setWritePointer_ram (s : State) (v : Word) : (s.setWritePointer v).ram = s.ram := rfl
@[simp] theorem State.setWritePointer_ramSize (s : State) (v : Word) :
    (s.setWritePointer v).ramSize = s.ramSize := rfl
@[simp] theorem State.setWritePointer_events (s : State) (v : Word) : (s.setWritePointer v).events = s.events := rfl
@[simp] theorem State.setWritePointer_returned (s : State) (v : Word) :
    (s.setWritePointer v).returned = s.returned := rfl
@[simp] theorem State.setWritePointer_port (s : State) (v : Word) : (s.setWritePointer v).port = s.port := rfl
@[simp] theorem State.setWritePointer_draws (s : State) (v : Word) : (s.setWritePointer v).draws = s.draws := rfl

@[simp] theorem State.setStorage_mode (s : State) (v : Binding) : (s.setStorage v).mode = s.mode := rfl
@[simp] theorem State.setStorage_status (s : State) (v : Binding) : (s.setStorage v).status = s.status := rfl
@[simp] theorem State.setStorage_eraseOffset (s : State) (v : Binding) :
    (s.setStorage v).eraseOffset = s.eraseOffset := rfl
@[simp] theorem State.setStorage_writePointer (s : State) (v : Binding) :
    (s.setStorage v).writePointer = s.writePointer := rfl
@[simp] theorem State.setStorage_storage (s : State) (v : Binding) : (s.setStorage v).storage = v := rfl
@[simp] theorem State.setStorage_store (s : State) (v : Binding) : (s.setStorage v).store = s.store := rfl
@[simp] theorem State.setStorage_ram (s : State) (v : Binding) : (s.setStorage v).ram = s.ram := rfl
@[simp] theorem State.setStorage_ramSize (s : State) (v : Binding) : (s.setStorage v).ramSize = s.ramSize := rfl
@[simp] theorem State.setStorage_events (s : State) (v : Binding) : (s.setStorage v).events = s.events := rfl
@[simp] theorem State.setStorage_returned (s : State) (v : Binding) : (s.setStorage v).returned = s.returned := rfl
@[simp] theorem State.setStorage_port (s : State) (v : Binding) : (s.setStorage v).port = s.port := rfl
@[simp] theorem State.setStorage_draws (s : State) (v : Binding) : (s.setStorage v).draws = s.draws := rfl

@[simp] theorem State.setStore_mode (s : State) (v : Memory) : (s.setStore v).mode = s.mode := rfl
@[simp] theorem State.setStore_status (s : State) (v : Memory) : (s.setStore v).status = s.status := rfl
@[simp] theorem State.setStore_eraseOffset (s : State) (v : Memory) :
    (s.setStore v).eraseOffset = s.eraseOffset := rfl
@[simp] theorem State.setStore_writePointer (s : State) (v : Memory) :
    (s.setStore v).writePointer = s.writePointer := rfl
@[simp] theorem State.setStore_storage (s : State) (v : Memory) : (s.setStore v).storage = s.storage := rfl
@[simp] theorem State.setStore_store (s : State) (v : Memory) : (s.setStore v).store = v := rfl
@[simp] theorem State.setStore_ram (s : State) (v : Memory) : (s.setStore v).ram = s.ram := rfl
@[simp] theorem State.setStore_ramSize (s : State) (v : Memory) : (s.setStore v).ramSize = s.ramSize := rfl
@[simp] theorem State.setStore_events (s : State) (v : Memory) : (s.setStore v).events = s.events := rfl
@[simp] theorem State.setStore_returned (s : State) (v : Memory) : (s.setStore v).returned = s.returned := rfl
@[simp] theorem State.setStore_port (s : State) (v : Memory) : (s.setStore v).port = s.port := rfl
@[simp] theorem State.setStore_draws (s : State) (v : Memory) : (s.setStore v).draws = s.draws := rfl

@[simp] theorem State.setRam_mode (s : State) (v : Memory) : (s.setRam v).mode = s.mode := rfl
@[simp] theorem State.setRam_status (s : State) (v : Memory) : (s.setRam v).status = s.status := rfl
@[simp] theorem State.setRam_eraseOffset (s : State) (v : Memory) : (s.setRam v).eraseOffset = s.eraseOffset := rfl
@[simp] theorem State.setRam_writePointer (s : State) (v : Memory) : (s.setRam v).writePointer = s.writePointer := rfl
@[simp] theorem State.setRam_storage (s : State) (v : Memory) : (s.setRam v).storage = s.storage := rfl
@[simp] theorem State.setRam_store (s : State) (v : Memory) : (s.setRam v).store = s.store := rfl
@[simp] theorem State.setRam_ram (s : State) (v : Memory) : (s.setRam v).ram = v := rfl
@[simp] theorem State.setRam_ramSize (s : State) (v : Memory) : (s.setRam v).ramSize = s.ramSize := rfl
@[simp] theorem State.setRam_events (s : State) (v : Memory) : (s.setRam v).events = s.events := rfl
@[simp] theorem State.setRam_returned (s : State) (v : Memory) : (s.setRam v).returned = s.returned := rfl
@[simp] theorem State.setRam_port (s : State) (v : Memory) : (s.setRam v).port = s.port := rfl
@[simp] theorem State.setRam_draws (s : State) (v : Memory) : (s.setRam v).draws = s.draws := rfl

@[simp] theorem State.setReturned_mode (s : State) (v : Option Word) : (s.setReturned v).mode = s.mode := rfl
@[simp] theorem State.setReturned_status (s : State) (v : Option Word) : (s.setReturned v).status = s.status := rfl
@[simp] theorem State.setReturned_eraseOffset (s : State) (v : Option Word) :
    (s.setReturned v).eraseOffset = s.eraseOffset := rfl
@[simp] theorem State.setReturned_writePointer (s : State) (v : Option Word) :
    (s.setReturned v).writePointer = s.writePointer := rfl
@[simp] theorem State.setReturned_storage (s : State) (v : Option Word) : (s.setReturned v).storage = s.storage := rfl
@[simp] theorem State.setReturned_store (s : State) (v : Option Word) : (s.setReturned v).store = s.store := rfl
@[simp] theorem State.setReturned_ram (s : State) (v : Option Word) : (s.setReturned v).ram = s.ram := rfl
@[simp] theorem State.setReturned_ramSize (s : State) (v : Option Word) : (s.setReturned v).ramSize = s.ramSize := rfl
@[simp] theorem State.setReturned_events (s : State) (v : Option Word) : (s.setReturned v).events = s.events := rfl
@[simp] theorem State.setReturned_returned (s : State) (v : Option Word) : (s.setReturned v).returned = v := rfl
@[simp] theorem State.setReturned_port (s : State) (v : Option Word) : (s.setReturned v).port = s.port := rfl
@[simp] theorem State.setReturned_draws (s : State) (v : Option Word) : (s.setReturned v).draws = s.draws := rfl

@[simp] theorem State.setPort_mode (s : State) (v : List Packet) : (s.setPort v).mode = s.mode := rfl
@[simp] theorem State.setPort_status (s : State) (v : List Packet) : (s.setPort v).status = s.status := rfl
@[simp] theorem State.setPort_eraseOffset (s : State) (v : List Packet) :
    (s.setPort v).eraseOffset = s.eraseOffset := rfl
@[simp] theorem State.setPort_writePointer (s : State) (v : List Packet) :
    (s.setPort v).writePointer = s.writePointer := rfl
@[simp] theorem State.setPort_storage (s : State) (v : List Packet) : (s.setPort v).storage = s.storage := rfl
@[simp] theorem State.setPort_store (s : State) (v : List Packet) : (s.setPort v).store = s.store := rfl
@[simp] theorem State.setPort_ram (s : State) (v : List Packet) : (s.setPort v).ram = s.ram := rfl
@[simp] theorem State.setPort_ramSize (s : State) (v : List Packet) : (s.setPort v).ramSize = s.ramSize := rfl
@[simp] theorem State.setPort_events (s : State) (v : List Packet) : (s.setPort v).events = s.events := rfl
@[simp] theorem State.setPort_returned (s : State) (v : List Packet) : (s.setPort v).returned = s.returned := rfl
@[simp] theorem State.setPort_port (s : State) (v : List Packet) : (s.setPort v).port = v := rfl
@[simp] theorem State.setPort_draws (s : State) (v : List Packet) : (s.setPort v).draws = s.draws := rfl

@[simp] theorem State.emit_mode (s : State) (e : Event) : (s.emit e).mode = s.mode := rfl
@[simp] theorem State.emit_status (s : State) (e : Event) : (s.emit e).status = s.status := rfl
@[simp] theorem State.emit_eraseOffset (s : State) (e : Event) : (s.emit e).eraseOffset = s.eraseOffset := rfl
@[simp] theorem State.emit_writePointer (s : State) (e : Event) : (s.emit e).writePointer = s.writePointer := rfl
@[simp] theorem State.emit_storage (s : State) (e : Event) : (s.emit e).storage = s.storage := rfl
@[simp] theorem State.emit_store (s : State) (e : Event) : (s.emit e).store = s.store := rfl
@[simp] theorem State.emit_ram (s : State) (e : Event) : (s.emit e).ram = s.ram := rfl
@[simp] theorem State.emit_ramSize (s : State) (e : Event) : (s.emit e).ramSize = s.ramSize := rfl
@[simp] theorem State.emit_events (s : State) (e : Event) : (s.emit e).events = s.events ++ [e] := rfl
@[simp] theorem State.emit_returned (s : State) (e : Event) : (s.emit e).returned = s.returned := rfl
@[simp] theorem State.emit_port (s : State) (e : Event) : (s.emit e).port = s.port := rfl
@[simp] theorem State.emit_draws (s : State) (e : Event) : (s.emit e).draws = s.draws := rfl

@[simp] theorem State.afterDraw_mode (s : State) : s.afterDraw.mode = s.mode := rfl
@[simp] theorem State.afterDraw_status (s : State) : s.afterDraw.status = s.status := rfl
@[simp] theorem State.afterDraw_eraseOffset (s : State) : s.afterDraw.eraseOffset = s.eraseOffset := rfl
@[simp] theorem State.afterDraw_writePointer (s : State) : s.afterDraw.writePointer = s.writePointer := rfl
@[simp] theorem State.afterDraw_storage (s : State) : s.afterDraw.storage = s.storage := rfl
@[simp] theorem State.afterDraw_store (s : State) : s.afterDraw.store = s.store := rfl
@[simp] theorem State.afterDraw_ram (s : State) : s.afterDraw.ram = s.ram := rfl
@[simp] theorem State.afterDraw_ramSize (s : State) : s.afterDraw.ramSize = s.ramSize := rfl
@[simp] theorem State.afterDraw_events (s : State) : s.afterDraw.events = s.events := rfl
@[simp] theorem State.afterDraw_returned (s : State) : s.afterDraw.returned = s.returned := rfl
@[simp] theorem State.afterDraw_port (s : State) : s.afterDraw.port = s.port := rfl
@[simp] theorem State.afterDraw_draws (s : State) : s.afterDraw.draws = s.draws + 1 := rfl

@[simp] theorem State.emitDiag_mode (s : State) (d : Diag) : (s.emitDiag d).mode = s.mode := rfl
@[simp] theorem State.emitDiag_status (s : State) (d : Diag) : (s.emitDiag d).status = s.status := rfl
@[simp] theorem State.emitDiag_eraseOffset (s : State) (d : Diag) : (s.emitDiag d).eraseOffset = s.eraseOffset := rfl
@[simp] theorem State.emitDiag_writePointer (s : State) (d : Diag) :
    (s.emitDiag d).writePointer = s.writePointer := rfl
@[simp] theorem State.emitDiag_storage (s : State) (d : Diag) : (s.emitDiag d).storage = s.storage := rfl
@[simp] theorem State.emitDiag_store (s : State) (d : Diag) : (s.emitDiag d).store = s.store := rfl
@[simp] theorem State.emitDiag_ram (s : State) (d : Diag) : (s.emitDiag d).ram = s.ram := rfl
@[simp] theorem State.emitDiag_ramSize (s : State) (d : Diag) : (s.emitDiag d).ramSize = s.ramSize := rfl
@[simp] theorem State.emitDiag_events (s : State) (d : Diag) : (s.emitDiag d).events = s.events ++ [.diag d] := rfl
@[simp] theorem State.emitDiag_returned (s : State) (d : Diag) : (s.emitDiag d).returned = s.returned := rfl
@[simp] theorem State.emitDiag_port (s : State) (d : Diag) : (s.emitDiag d).port = s.port := rfl
@[simp] theorem State.emitDiag_draws (s : State) (d : Diag) : (s.emitDiag d).draws = s.draws := rfl

@[simp] theorem State.emitSave_mode (s : State) : s.emitSave.mode = s.mode := rfl
@[simp] theorem State.emitSave_status (s : State) : s.emitSave.status = s.status := rfl
@[simp] theorem State.emitSave_eraseOffset (s : State) : s.emitSave.eraseOffset = s.eraseOffset := rfl
@[simp] theorem State.emitSave_writePointer (s : State) : s.emitSave.writePointer = s.writePointer := rfl
@[simp] theorem State.emitSave_storage (s : State) : s.emitSave.storage = s.storage := rfl
@[simp] theorem State.emitSave_store (s : State) : s.emitSave.store = s.store := rfl
@[simp] theorem State.emitSave_ram (s : State) : s.emitSave.ram = s.ram := rfl
@[simp] theorem State.emitSave_ramSize (s : State) : s.emitSave.ramSize = s.ramSize := rfl
@[simp] theorem State.emitSave_events (s : State) : s.emitSave.events = s.events ++ [.save] := rfl
@[simp] theorem State.emitSave_returned (s : State) : s.emitSave.returned = s.returned := rfl
@[simp] theorem State.emitSave_port (s : State) : s.emitSave.port = s.port := rfl
@[simp] theorem State.emitSave_draws (s : State) : s.emitSave.draws = s.draws := rfl

@[simp] theorem State.writeStore_mode (s : State) (h base n : Nat) (f : Nat → Byte) :
    (s.writeStore h base n f).mode = s.mode := rfl
@[simp] theorem State.writeStore_status (s : State) (h base n : Nat) (f : Nat → Byte) :
    (s.writeStore h base n f).status = s.status := rfl
@[simp] theorem State.writeStore_eraseOffset (s : State) (h base n : Nat) (f : Nat → Byte) :
    (s.writeStore h base n f).eraseOffset = s.eraseOffset := rfl
@[simp] theorem State.writeStore_writePointer (s : State) (h base n : Nat) (f : Nat → Byte) :
    (s.writeStore h base n f).writePointer = s.writePointer := rfl
@[simp] theorem State.writeStore_storage (s : State) (h base n : Nat) (f : Nat → Byte) :
    (s.writeStore h base n f).storage = s.storage := rfl
@[simp] theorem State.writeStore_store (s : State) (h base n : Nat) (f : Nat → Byte) :
    (s.writeStore h base n f).store = Memory.writeLoop storeUnlisted s.store (fun i => bufferAddress h (phys (base + i))) f n := rfl
@[simp] theorem State.writeStore_ram (s : State) (h base n : Nat) (f : Nat → Byte) :
    (s.writeStore h base n f).ram = s.ram := rfl
@[simp] theorem State.writeStore_ramSize (s : State) (h base n : Nat) (f : Nat → Byte) :
    (s.writeStore h base n f).ramSize = s.ramSize := rfl
@[simp] theorem State.writeStore_events (s : State) (h base n : Nat) (f : Nat → Byte) :
    (s.writeStore h base n f).events = s.events := rfl
@[simp] theorem State.writeStore_returned (s : State) (h base n : Nat) (f : Nat → Byte) :
    (s.writeStore h base n f).returned = s.returned := rfl
@[simp] theorem State.writeStore_port (s : State) (h base n : Nat) (f : Nat → Byte) :
    (s.writeStore h base n f).port = s.port := rfl
@[simp] theorem State.writeStore_draws (s : State) (h base n : Nat) (f : Nat → Byte) :
    (s.writeStore h base n f).draws = s.draws := rfl

@[simp] theorem State.writeRam_mode (s : State) (base n : Nat) (f : Nat → Byte) :
    (s.writeRam base n f).mode = s.mode := rfl
@[simp] theorem State.writeRam_status (s : State) (base n : Nat) (f : Nat → Byte) :
    (s.writeRam base n f).status = s.status := rfl
@[simp] theorem State.writeRam_eraseOffset (s : State) (base n : Nat) (f : Nat → Byte) :
    (s.writeRam base n f).eraseOffset = s.eraseOffset := rfl
@[simp] theorem State.writeRam_writePointer (s : State) (base n : Nat) (f : Nat → Byte) :
    (s.writeRam base n f).writePointer = s.writePointer := rfl
@[simp] theorem State.writeRam_storage (s : State) (base n : Nat) (f : Nat → Byte) :
    (s.writeRam base n f).storage = s.storage := rfl
@[simp] theorem State.writeRam_store (s : State) (base n : Nat) (f : Nat → Byte) :
    (s.writeRam base n f).store = s.store := rfl
@[simp] theorem State.writeRam_ram (s : State) (base n : Nat) (f : Nat → Byte) :
    (s.writeRam base n f).ram = Memory.writeLoop ramUnlisted s.ram (fun i => phys (base + i)) f n := rfl
@[simp] theorem State.writeRam_ramSize (s : State) (base n : Nat) (f : Nat → Byte) :
    (s.writeRam base n f).ramSize = s.ramSize := rfl
@[simp] theorem State.writeRam_events (s : State) (base n : Nat) (f : Nat → Byte) :
    (s.writeRam base n f).events = s.events := rfl
@[simp] theorem State.writeRam_returned (s : State) (base n : Nat) (f : Nat → Byte) :
    (s.writeRam base n f).returned = s.returned := rfl
@[simp] theorem State.writeRam_port (s : State) (base n : Nat) (f : Nat → Byte) :
    (s.writeRam base n f).port = s.port := rfl
@[simp] theorem State.writeRam_draws (s : State) (base n : Nat) (f : Nat → Byte) :
    (s.writeRam base n f).draws = s.draws := rfl

@[simp] theorem State.formatBuffer_mode (s : State) (h : Nat) : (s.formatBuffer h).mode = s.mode := rfl
@[simp] theorem State.formatBuffer_status (s : State) (h : Nat) : (s.formatBuffer h).status = s.status := rfl
@[simp] theorem State.formatBuffer_eraseOffset (s : State) (h : Nat) :
    (s.formatBuffer h).eraseOffset = s.eraseOffset := rfl
@[simp] theorem State.formatBuffer_writePointer (s : State) (h : Nat) :
    (s.formatBuffer h).writePointer = s.writePointer := rfl
@[simp] theorem State.formatBuffer_storage (s : State) (h : Nat) : (s.formatBuffer h).storage = s.storage := rfl
@[simp] theorem State.formatBuffer_store (s : State) (h : Nat) :
    (s.formatBuffer h).store = Memory.clearRange s.store (bufferAddress h 0) Config.flashramSize := rfl
@[simp] theorem State.formatBuffer_ram (s : State) (h : Nat) : (s.formatBuffer h).ram = s.ram := rfl
@[simp] theorem State.formatBuffer_ramSize (s : State) (h : Nat) : (s.formatBuffer h).ramSize = s.ramSize := rfl
@[simp] theorem State.formatBuffer_events (s : State) (h : Nat) : (s.formatBuffer h).events = s.events := rfl
@[simp] theorem State.formatBuffer_returned (s : State) (h : Nat) : (s.formatBuffer h).returned = s.returned := rfl
@[simp] theorem State.formatBuffer_port (s : State) (h : Nat) : (s.formatBuffer h).port = s.port := rfl
@[simp] theorem State.formatBuffer_draws (s : State) (h : Nat) : (s.formatBuffer h).draws = s.draws := rfl

@[simp] theorem State.loadArtifact_mode (s : State) (h : Nat) (b : List Byte) :
    (s.loadArtifact h b).mode = s.mode := rfl
@[simp] theorem State.loadArtifact_status (s : State) (h : Nat) (b : List Byte) :
    (s.loadArtifact h b).status = s.status := rfl
@[simp] theorem State.loadArtifact_eraseOffset (s : State) (h : Nat) (b : List Byte) :
    (s.loadArtifact h b).eraseOffset = s.eraseOffset := rfl
@[simp] theorem State.loadArtifact_writePointer (s : State) (h : Nat) (b : List Byte) :
    (s.loadArtifact h b).writePointer = s.writePointer := rfl
@[simp] theorem State.loadArtifact_storage (s : State) (h : Nat) (b : List Byte) :
    (s.loadArtifact h b).storage = s.storage := rfl
@[simp] theorem State.loadArtifact_ram (s : State) (h : Nat) (b : List Byte) :
    (s.loadArtifact h b).ram = s.ram := rfl
@[simp] theorem State.loadArtifact_ramSize (s : State) (h : Nat) (b : List Byte) :
    (s.loadArtifact h b).ramSize = s.ramSize := rfl
@[simp] theorem State.loadArtifact_events (s : State) (h : Nat) (b : List Byte) :
    (s.loadArtifact h b).events = s.events := rfl
@[simp] theorem State.loadArtifact_returned (s : State) (h : Nat) (b : List Byte) :
    (s.loadArtifact h b).returned = s.returned := rfl
@[simp] theorem State.loadArtifact_port (s : State) (h : Nat) (b : List Byte) :
    (s.loadArtifact h b).port = s.port := rfl
@[simp] theorem State.loadArtifact_draws (s : State) (h : Nat) (b : List Byte) :
    (s.loadArtifact h b).draws = s.draws := rfl
@[simp] theorem State.loadArtifact_store (s : State) (h : Nat) (b : List Byte) :
    (s.loadArtifact h b).store = Memory.writeLoop storeUnlisted (s.formatBuffer h).store (bufferAddress h)
      (fun p => b.getD p fillByte) (min b.length Config.flashramSize) := rfl

end Sys2Proof.Machine
end

