-- ==== Sys2Proof/Laws/Ops.lean ====
section
/-! SUPPORT. One lemma for each shared operation that says all it can do; callers cite it and do not unfold the
operation. -/

namespace Sys2Proof.Machine

/-! ## Ends, stops and sequencing -/

@[simp] theorem done_eq_next {s t : State} : done s = .next t ↔ s.setReturned none = t := by
  simp [done]

@[simp] theorem reply_eq_next {v : Word} {s t : State} : reply v s = .next t ↔ s.setReturned (some v) = t := by
  simp [reply]

@[simp] theorem raise_ne_next {f : Fault} {t : State} : raise f ≠ .next t := by
  simp [raise]

@[simp] theorem andThen_next (s : State) (k : State → Result) : andThen (.next s) k = k s := rfl

@[simp] theorem andThen_raise (f : Fault) (k : State → Result) : andThen (raise f) k = raise f := rfl

/-- A sequence answers a next state exactly when both parts do. -/
theorem andThen_eq_next {r : Result} {k : State → Result} {t : State} :
    andThen r k = .next t ↔ ∃ s, r = .next s ∧ k s = .next t := by
  cases r <;> simp [andThen]

/-- The binding check answers a next state exactly when storage is bound and the rest does. -/
theorem withStorage_eq_next {site : Site} {s t : State} {k : Nat → Result} :
    withStorage site s k = .next t ↔ ∃ h, s.storage = .bound h ∧ k h = .next t := by
  unfold withStorage
  cases s.storage <;> simp

theorem withStorage_unbound {site : Site} {s : State} (k : Nat → Result) (h : s.storage = .unbound) :
    withStorage site s k = raise (.unbound site) := by
  simp [withStorage, h]

theorem withStorage_bound {site : Site} {s : State} {h : Nat} (k : Nat → Result) (hb : s.storage = .bound h) :
    withStorage site s k = k h := by
  simp [withStorage, hb]

/-- The range check answers a next state exactly when the bytes lie in the buffer and the rest does. -/
theorem checkRange_eq_next {site : Site} {buffer : Buffer} {base n size reported : Nat} {k : Result} {t : State} :
    checkRange site buffer base n size reported k = .next t ↔ base + n ≤ size ∧ k = .next t := by
  unfold checkRange
  split
  · next h => simp only [raise_ne_next, false_iff, not_and]; omega
  · next h => simp only [iff_and_self]; omega

theorem checkRange_in {site : Site} {buffer : Buffer} {base n size reported : Nat} (k : Result)
    (h : base + n ≤ size) : checkRange site buffer base n size reported k = k := by
  simp [checkRange, h]

theorem checkRange_out {site : Site} {buffer : Buffer} {base n size reported : Nat} (k : Result)
    (h : size < base + n) : checkRange site buffer base n size reported k = raise (.outOfRange buffer reported site) := by
  simp [checkRange, h]

/-! ## The block updates as record updates, without unfolding the loop -/

theorem State.writeStore_eq (s : State) (h base n : Nat) (f : Nat → Byte) : s.writeStore h base n f =
    { s with store := Memory.writeLoop storeUnlisted s.store (fun i => bufferAddress h (phys (base + i))) f n } := rfl

theorem State.writeRam_eq (s : State) (base n : Nat) (f : Nat → Byte) : s.writeRam base n f =
    { s with ram := Memory.writeLoop ramUnlisted s.ram (fun i => phys (base + i)) f n } := rfl

theorem State.emitSave_eq (s : State) : s.emitSave = { s with events := s.events ++ [.save] } := rfl

theorem State.emitDiag_eq (s : State) (d : Diag) : s.emitDiag d = { s with events := s.events ++ [.diag d] } := rfl

/-! ## Blocks of bytes -/

/-- After a block write to a buffer: logical bytes of the block read the value written, every other address of the
backing memory is as before. -/
theorem State.writeStore_read (s : State) (h base n : Nat) (f : Nat → Byte) (i : Nat) (hi : i < n) :
    (s.writeStore h base n f).storeLogical h (base + i) = f i := by
  rw [State.storeLogical, State.storeByte, State.writeStore_store]
  exact Memory.read_writeLoop storeUnlisted s.store (fun j => bufferAddress h (phys (base + j))) f n i hi
    fun j k e => by have := bufferAddress_inj_phys e; omega

theorem State.writeStore_read_other (s : State) (h base n : Nat) (f : Nat → Byte) (a : Nat)
    (ha : ∀ i < n, bufferAddress h (phys (base + i)) ≠ a) :
    Memory.read storeUnlisted (s.writeStore h base n f).store a = Memory.read storeUnlisted s.store a := by
  rw [State.writeStore_store]
  exact Memory.read_writeLoop_other _ _ _ _ _ _ ha

/-- In the logical view of one buffer, a block write changes the block and nothing else. -/
theorem State.writeStore_logical (s : State) (h base n : Nat) (f : Nat → Byte) (l : Nat) :
    (s.writeStore h base n f).storeLogical h l =
      if base ≤ l ∧ l < base + n then f (l - base) else s.storeLogical h l := by
  split
  · next hl =>
    have := s.writeStore_read h base n f (l - base) (by omega)
    rwa [show base + (l - base) = l by omega] at this
  · next hl =>
    refine s.writeStore_read_other h base n f _ fun i hi e => hl ?_
    have := bufferAddress_inj_phys e
    omega

/-- In the logical view, a block write to RAM changes the block and nothing else. -/
theorem State.writeRam_logical (s : State) (base n : Nat) (f : Nat → Byte) (l : Nat) :
    (s.writeRam base n f).ramLogical l = if base ≤ l ∧ l < base + n then f (l - base) else s.ramLogical l := by
  simp only [State.ramLogical, State.ramByte, State.writeRam_ram]
  split
  · next hl =>
    have := Memory.read_writeLoop ramUnlisted s.ram (fun j => phys (base + j)) f n (l - base) (by omega)
      fun j k e => by have := phys_inj e; omega
    rwa [show base + (l - base) = l by omega] at this
  · next hl =>
    refine Memory.read_writeLoop_other ramUnlisted s.ram (fun j => phys (base + j)) f n _ fun i hi e => hl ?_
    have := phys_inj e
    omega

/-- A formatted buffer reads 0xFF everywhere; every byte outside it is as before. -/
theorem State.formatBuffer_read (s : State) (h a : Nat) :
    Memory.read storeUnlisted (s.formatBuffer h).store a =
      if bufferAddress h 0 ≤ a ∧ a < bufferAddress h 0 + Config.flashramSize then fillByte
      else Memory.read storeUnlisted s.store a := by
  rw [State.formatBuffer_store, Memory.read_clearRange]
  rfl

/-- A loaded buffer holds the artifact, and erased bytes after its end; every byte outside it is as before. -/
theorem State.loadArtifact_read (s : State) (h : Nat) (artifact : List Byte) (a : Nat) :
    Memory.read storeUnlisted (s.loadArtifact h artifact).store a =
      if bufferAddress h 0 ≤ a ∧ a < bufferAddress h 0 + Config.flashramSize then
        artifact.getD (a - bufferAddress h 0) fillByte
      else Memory.read storeUnlisted s.store a := by
  rw [State.loadArtifact_store]
  by_cases written : ∃ p < min artifact.length Config.flashramSize, bufferAddress h p = a
  · obtain ⟨p, hp, rfl⟩ := written
    rw [Memory.read_writeLoop _ _ _ _ _ p hp fun j k e => by simp only [bufferAddress] at e; omega]
    rw [if_pos (by simp only [bufferAddress] at *; omega)]
    exact congrArg (artifact.getD · fillByte) (by simp only [bufferAddress]; omega)
  · rw [Memory.read_writeLoop_other _ _ _ _ _ _ fun i hi e => written ⟨i, hi, e⟩, State.formatBuffer_read]
    split
    · next inside =>
      have past : artifact.length ≤ a - bufferAddress h 0 := by
        refine Nat.le_of_not_lt fun hlt => written ⟨a - bufferAddress h 0, ?_, ?_⟩ <;>
          simp only [bufferAddress] at * <;> omega
      rw [List.getD_eq_default _ _ past]
    · rfl

/-- Loading an artifact keeps the canonical form. -/
theorem State.loadArtifact_wf {s : State} (h : Nat) (artifact : List Byte) (wf : Memory.wf storeUnlisted s.store) :
    Memory.wf storeUnlisted (s.loadArtifact h artifact).store :=
  Memory.wf_writeLoop _ _ _ (Memory.wf_clearRange _ _ wf)

end Sys2Proof.Machine
end

