-- ==== Sys2Proof/Laws/Exec.lean ====
section
/-! SUPPORT. What the meanings that can stop do when they answer a next state, and how a written command reaches
its meaning. -/

namespace Sys2Proof.Machine

/-- EXECUTE in Erase mode answers exactly when storage is bound and the page lies in it. -/
theorem eraseBranch_eq_next {s t : State} : eraseBranch s = .next t ↔
    ∃ h, s.storage = .bound h ∧ s.pageInStore ∧
      ((s.writeStore h s.eraseOffset.toNat Config.pageSize fun _ => fillByte).emitSave) = t := by
  simp only [eraseBranch, withStorage_eq_next, checkRange_eq_next, Host.Outcome.next.injEq]

/-- EXECUTE in Write mode answers exactly when storage is bound, the page lies in it and the source in RAM. -/
theorem writeBranch_eq_next {s t : State} : writeBranch s = .next t ↔
    ∃ h, s.storage = .bound h ∧ s.pageInStore ∧ s.sourceInRam ∧
      ((s.writeStore h s.eraseOffset.toNat Config.pageSize
        fun i => s.ramLogical (s.writePointer.toNat + i)).emitSave) = t := by
  simp only [writeBranch, withStorage_eq_next, checkRange_eq_next, Host.Outcome.next.injEq]

/-- EXECUTE answers exactly when its branch does, and then the mode is Idle. -/
theorem execExecute_eq_next {s t : State} : execExecute s = .next t ↔
    ∃ u, executeBranch s = .next u ∧ (u.setMode .idle).setReturned none = t := by
  simp only [execExecute, andThen_eq_next, done_eq_next]

/-- What the branch of EXECUTE can do, mode by mode. -/
theorem executeBranch_cases {s t : State} (e : executeBranch s = .next t) :
    ((s.mode = .idle ∨ s.mode = .read ∨ s.mode = .status) ∧ t = s) ∨
    (s.mode = .erase ∧ eraseBranch s = .next t) ∨ (s.mode = .write ∧ writeBranch s = .next t) ∨
    (∃ n, s.mode = .unknown n ∧ t = s.emitDiag (.execUnknownMode (.unknown n))) := by
  unfold executeBranch at e
  cases hm : s.mode <;> simp only [hm, Host.Outcome.next.injEq] at e <;> simp_all

/-- A Status-mode DMA answers exactly when the eight bytes lie in RAM. -/
theorem dmaStatusBranch_eq_next {r : Word} {s t : State} : dmaStatusBranch r s = .next t ↔
    statusDmaStart statusDmaBase r + 8 ≤ s.ramSize ∧
      (s.writeRam (statusDmaStart statusDmaBase r) 8 fun k => beByte s.status k) = t := by
  simp only [dmaStatusBranch, checkRange_eq_next, Host.Outcome.next.injEq]

/-- A Read-mode DMA answers exactly when storage is bound and both ranges lie in their buffers. -/
theorem dmaReadBranch_eq_next {r f l : Word} {s t : State} : dmaReadBranch r f l s = .next t ↔
    ∃ h, s.storage = .bound h ∧ dmaSource f + dmaCount l ≤ Config.flashramSize ∧ r.toNat + dmaCount l ≤ s.ramSize ∧
      (s.writeRam r.toNat (dmaCount l) fun i => s.storeLogical h (dmaSource f + i)) = t := by
  simp only [dmaReadBranch, withStorage_eq_next, checkRange_eq_next, Host.Outcome.next.injEq]

/-- What the branch of DMA_TO_RAM can do, mode by mode. -/
theorem dmaToRamBranch_cases {r f l : Word} {s t : State} (e : dmaToRamBranch r f l s = .next t) :
    (s.mode = .status ∧ dmaStatusBranch r s = .next t) ∨ (s.mode = .read ∧ dmaReadBranch r f l s = .next t) ∨
    (s.mode ≠ .status ∧ s.mode ≠ .read ∧ t = s.emitDiag (.dmaToRamMode s.mode)) := by
  unfold dmaToRamBranch at e
  cases hm : s.mode <;> simp only [hm, Host.Outcome.next.injEq] at e <;> simp_all

/-- What the branch of DMA_FROM_RAM can do; it always answers. -/
theorem dmaFromRamBranch_cases (r : Word) (s : State) :
    (s.mode = .write ∧ dmaFromRamBranch r s = .next (s.setWritePointer r)) ∨
    (s.mode ≠ .write ∧ dmaFromRamBranch r s = .next (s.emitDiag (.dmaFromRamMode s.mode))) := by
  unfold dmaFromRamBranch
  cases s.mode <;> simp

/-- EXECUTE in Erase mode, where it does not fault. -/
theorem execExecute_erase {s : State} {h : Nat} (hm : s.mode = .erase) (hs : s.storage = .bound h)
    (hp : s.pageInStore) : execExecute s = .next ((((s.writeStore h s.eraseOffset.toNat Config.pageSize
      fun _ => fillByte).emitSave).setMode .idle).setReturned none) := by
  refine execExecute_eq_next.mpr ⟨_, ?_, rfl⟩
  simp only [executeBranch, hm]
  exact eraseBranch_eq_next.mpr ⟨h, hs, hp, rfl⟩

/-- EXECUTE in Write mode, where it does not fault. -/
theorem execExecute_write {s : State} {h : Nat} (hm : s.mode = .write) (hs : s.storage = .bound h)
    (hp : s.pageInStore) (hq : s.sourceInRam) :
    execExecute s = .next ((((s.writeStore h s.eraseOffset.toNat Config.pageSize
      fun i => s.ramLogical (s.writePointer.toNat + i)).emitSave).setMode .idle).setReturned none) := by
  refine execExecute_eq_next.mpr ⟨_, ?_, rfl⟩
  simp only [executeBranch, hm]
  exact writeBranch_eq_next.mpr ⟨h, hs, hp, hq, rfl⟩

/-- DMA_TO_RAM in Read mode, where it does not fault. -/
theorem execDmaToRam_read {s : State} {h : Nat} (r f l : Word) (hm : s.mode = .read) (hs : s.storage = .bound h)
    (hp : dmaSource f + dmaCount l ≤ Config.flashramSize) (hq : r.toNat + dmaCount l ≤ s.ramSize) :
    execDmaToRam r f l s = .next ((s.writeRam r.toNat (dmaCount l)
      fun i => s.storeLogical h (dmaSource f + i)).setReturned (some Config.dmaCost)) := by
  refine andThen_eq_next.mpr ⟨_, ?_, rfl⟩
  simp only [dmaToRamBranch, hm]
  exact dmaReadBranch_eq_next.mpr ⟨h, hs, hp, hq, rfl⟩

/-! ## The launch argument -/

@[simp] theorem State.launch_nil (s : State) : s.launch [] = s := rfl

@[simp] theorem State.launch_cons (s : State) (a : Nat × List Byte) (rest : List (Nat × List Byte)) :
    s.launch (a :: rest) = (s.loadArtifact a.1 a.2).launch rest := rfl

/-- A launch gives the backing buffers their contents and nothing else. -/
theorem State.launch_eq (s : State) (artifacts : List (Nat × List Byte)) :
    s.launch artifacts = { s with store := (s.launch artifacts).store } := by
  induction artifacts generalizing s with
  | nil => rfl
  | cons a rest ih => rw [State.launch_cons, ih]; rfl

/-- A launch keeps the canonical form. -/
theorem State.launch_wf {s : State} (artifacts : List (Nat × List Byte)) (wf : Memory.wf storeUnlisted s.store) :
    Memory.wf storeUnlisted (s.launch artifacts).store := by
  induction artifacts generalizing s with
  | nil => exact wf
  | cons a rest ih => exact ih (State.loadArtifact_wf a.1 a.2 wf)

/-! ## How a written command reaches its meaning -/

/-- The dispatch of 40_commands.md R81 agrees with the decoder: a recognized word runs the meaning of the
instruction it decodes to, any other the diagnostic. -/
theorem executeCommand_eq (w : Word) (s : State) :
    executeCommand w s = match decodeCommand w with
      | some i => exec i s
      | none => unrecognized w s := by
  unfold executeCommand decodeCommand
  split_ifs <;> rfl

/-- What a command register write can do. -/
theorem execRegWriteCommand_cases {a v m : Word} {s t : State} (e : execRegWriteCommand a v m s = .next t) :
    (addressValid a = true ∧ ∃ i, decodeCommand (maskedCommand v m) = some i ∧ exec i s = .next t) ∨
    (addressValid a = true ∧ decodeCommand (maskedCommand v m) = none ∧
      t = (s.emitDiag (.unknownCommand (maskedCommand v m))).setReturned none) ∨
    (addressValid a = false ∧ t = (s.emitDiag (.badCommandWriteAddr a)).setReturned none) := by
  unfold execRegWriteCommand at e
  split at e
  · next hv =>
    rw [executeCommand_eq] at e
    cases hd : decodeCommand (maskedCommand v m) with
    | some i => exact .inl ⟨hv, i, rfl, by simpa [hd] using e⟩
    | none =>
      rw [hd] at e
      exact .inr (.inl ⟨hv, rfl, (done_eq_next.mp e).symm⟩)
  · next hv => exact .inr (.inr ⟨by simpa using hv, (done_eq_next.mp e).symm⟩)

/-! ## What any transaction can do -/

/-- The seven command words. -/
def isCommand : Instr → Bool
  | .eraseSetup _ => true
  | .eraseMode => true
  | .eraseOffset _ => true
  | .writeMode => true
  | .execute => true
  | .statusMode => true
  | .readMode => true
  | .regReadStatus _ => false
  | .regWriteStatus _ _ _ => false
  | .regReadCommand _ => false
  | .regWriteCommand _ _ _ => false
  | .dmaToRam _ _ _ => false
  | .dmaFromRam _ _ _ => false
  | .initializeStorage _ => false
  | .powerOn => false
  | .format _ => false

/-- The next state of an operation that is no command register write, in terms of the named updates. -/
def Effect : Instr → State → State → Prop
  | .eraseSetup page, s, t => t = (s.setEraseOffset (pageOffset page)).setReturned none
  | .eraseMode, s, t => t = ((s.setMode .erase).setStatus statusEraseMode).setReturned none
  | .eraseOffset page, s, t =>
    t = (((s.setEraseOffset (pageOffset page)).setMode .erase).setStatus statusErasePending).setReturned none
  | .writeMode, s, t => t = (s.setMode .write).setReturned none
  | .execute, s, t => ∃ u, executeBranch s = .next u ∧ t = (u.setMode .idle).setReturned none
  | .statusMode, s, t => t = ((s.setMode .status).setStatus statusStatusMode).setReturned none
  | .readMode, s, t => t = ((s.setMode .read).setStatus statusReadMode).setReturned none
  | .regReadStatus a, s, t =>
    t = s.setReturned (some (hi32 s.status)) ∨
    t = (s.emitDiag (.badStatusReadAddr a)).afterDraw.setReturned (some s.drawn)
  | .regWriteStatus _ _ _, s, t => t = s.setReturned none
  | .regReadCommand _, s, t => t = s.setReturned (some 0#32)
  | .regWriteCommand _ _ _, _, _ => False
  | .dmaToRam r f l, s, t => ∃ u, dmaToRamBranch r f l s = .next u ∧ t = u.setReturned (some Config.dmaCost)
  | .dmaFromRam r _ _, s, t => ∃ u, dmaFromRamBranch r s = .next u ∧ t = u.setReturned (some Config.dmaCost)
  | .initializeStorage h, s, t => t = (s.setStorage (.bound h)).setReturned none
  | .powerOn, s, t =>
    t = ((((s.setMode .idle).setStatus 0#64).setEraseOffset 0#32).setWritePointer 0#32).setReturned none
  | .format b, s, t => t = (s.formatBuffer b).setReturned none

/-- Every next state of an operation that is no command register write is its effect. -/
theorem exec_effect {i : Instr} {s t : State} (hi : ∀ a v m, i ≠ .regWriteCommand a v m)
    (e : exec i s = .next t) : Effect i s t := by
  cases i with
  | regWriteCommand a v m => exact absurd rfl (hi a v m)
  | regReadStatus a =>
    simp only [exec, execRegReadStatus] at e
    split at e
    · exact .inl (reply_eq_next.mp e).symm
    · exact .inr (reply_eq_next.mp e).symm
  | regReadCommand a => exact (reply_eq_next.mp e).symm
  | execute =>
    obtain ⟨u, hu, ht⟩ := execExecute_eq_next.mp e
    exact ⟨u, hu, ht.symm⟩
  | dmaToRam r f l =>
    obtain ⟨u, hu, ht⟩ := andThen_eq_next.mp e
    exact ⟨u, hu, (reply_eq_next.mp ht).symm⟩
  | dmaFromRam r f l =>
    obtain ⟨u, hu, ht⟩ := andThen_eq_next.mp e
    exact ⟨u, hu, (reply_eq_next.mp ht).symm⟩
  | _ => exact (done_eq_next.mp e).symm

/-- The command decoder answers commands only. -/
theorem decodeCommand_isCommand {w : Word} {i : Instr} (h : decodeCommand w = some i) : isCommand i = true := by
  rcases decodeCommand_cases h with ⟨_, rfl⟩ | ⟨_, rfl⟩ | ⟨_, rfl⟩ | ⟨_, rfl⟩ | ⟨_, rfl⟩ | ⟨_, rfl⟩ | ⟨_, rfl⟩ <;> rfl

/-- What an instruction carries out is itself, or the command of a command register write. -/
theorem carriedOut_cases {i j : Instr} (h : carriedOut i = some j) :
    (i = j ∧ ∀ a v m, i ≠ .regWriteCommand a v m) ∨
    ((∃ a v m, i = .regWriteCommand a v m) ∧ isCommand j = true) := by
  cases i with
  | regWriteCommand a v m =>
    refine .inr ⟨⟨a, v, m, rfl⟩, ?_⟩
    simp only [carriedOut] at h
    split at h
    · exact decodeCommand_isCommand h
    · exact absurd h (by simp)
  | _ => exact .inl ⟨Option.some.inj h, by simp⟩

/-- Every next state of every transaction: the effect of the operation it carries out, or, for a command register
write that carries out none, one diagnostic. -/
theorem exec_cases {i : Instr} {s t : State} (e : exec i s = .next t) :
    (∃ j, carriedOut i = some j ∧ exec j s = .next t ∧ Effect j s t) ∨
    (carriedOut i = none ∧ (∃ a v m, i = .regWriteCommand a v m) ∧ ∃ d, t = (s.emitDiag d).setReturned none) := by
  cases i with
  | regWriteCommand a v m =>
    rcases execRegWriteCommand_cases e with ⟨hv, j, hj, ej⟩ | ⟨hv, hn, ht⟩ | ⟨hv, ht⟩
    · refine .inl ⟨j, by simp [carriedOut, hv, hj], ej, exec_effect (fun a v m hne => ?_) ej⟩
      simpa [hne, isCommand] using decodeCommand_isCommand hj
    · exact .inr ⟨by simp [carriedOut, hv, hn], ⟨a, v, m, rfl⟩, _, ht⟩
    · exact .inr ⟨by simp [carriedOut, hv], ⟨a, v, m, rfl⟩, _, ht⟩
  | _ => exact .inl ⟨_, rfl, e, exec_effect (by simp) e⟩

/-- What one step can do: nothing with an empty port, or the decoded transaction in the state without its packet. -/
theorem step_cases {s t : State} (e : step s = .next t) :
    (s.port = [] ∧ t = s) ∨
    ∃ p rest i, s.port = p :: rest ∧ decodePacket p = some i ∧ exec i (s.setPort rest) = .next t := by
  unfold step State.take at e
  cases hp : s.port with
  | nil => exact .inl ⟨rfl, by simpa [hp] using e.symm⟩
  | cons p rest =>
    refine .inr ⟨p, rest, ?_⟩
    simp only [hp] at e
    cases hd : decodePacket p with
    | none => simp [hd] at e
    | some i => exact ⟨i, rfl, rfl, by simpa [hd] using e⟩

end Sys2Proof.Machine
end

