-- ==== Sys2Proof/Laws/PerInstr.lean ====
section
/-! SUPPORT. Families of statements about every instruction as syntax, one lemma for each constructor. -/

/-- The code of a well-formed instruction is the one code of that instruction: every bit that the instruction
ignores is zero (30_encoding.md R65), and the tag is assigned (R73). -/
def Sys2Proof.Laws.CanonicalCode.Statement (i : Sys2Proof.Instr) : Prop :=
  i.wf = true → (Sys2Proof.encode i).canonical = true

namespace Sys2Proof.Laws.CanonicalCode

theorem decode_setup (p : BitVec 16) : decodeCommand (commandWord opcEraseSetup p) = some (.eraseSetup p) := by
  simp [decodeCommand]

theorem decode_offset (p : BitVec 16) : decodeCommand (commandWord opcEraseOffset p) = some (.eraseOffset p) := by
  simp [decodeCommand, opcEraseOffset, opcEraseSetup, opcEraseMode]

theorem eraseSetup (page : BitVec 16) : Statement (.eraseSetup page) := fun _ => by
  simp [encode, Code.canonical, decode_setup, commandWord_middle]

theorem eraseMode : Statement .eraseMode := fun _ => by decide

theorem eraseOffset (page : BitVec 16) : Statement (.eraseOffset page) := fun _ => by
  simp [encode, Code.canonical, decode_offset, commandWord_middle]

theorem writeMode : Statement .writeMode := fun _ => by decide

theorem execute : Statement .execute := fun _ => by decide

theorem statusMode : Statement .statusMode := fun _ => by decide

theorem readMode : Statement .readMode := fun _ => by decide

theorem regReadStatus (a : Word) : Statement (.regReadStatus a) := fun _ => rfl

theorem regWriteStatus (a v m : Word) : Statement (.regWriteStatus a v m) := fun _ => rfl

theorem regReadCommand (a : Word) : Statement (.regReadCommand a) := fun _ => rfl

theorem regWriteCommand (a v m : Word) : Statement (.regWriteCommand a v m) := fun _ => rfl

theorem dmaToRam (r f l : Word) : Statement (.dmaToRam r f l) := fun _ => rfl

theorem dmaFromRam (r f l : Word) : Statement (.dmaFromRam r f l) := fun _ => rfl

theorem initializeStorage (h : Nat) : Statement (.initializeStorage h) := fun _ => rfl

theorem powerOn : Statement .powerOn := fun _ => by decide

theorem format (b : Nat) : Statement (.format b) := fun _ => rfl

end Sys2Proof.Laws.CanonicalCode
end

