-- ==== Sys2Proof/Tests/Slice0.lean ====
section
/-! SUPPORT. The model's own tests: what WellFormed refuses, words written out from the encodings of
30_encoding.md, one or two steps per instruction with the results of 95_test_vectors.md (its vector is named at
each), and for each obligation with hypotheses a state and operands that meet them. -/

namespace Sys2Proof.Tests

open Sys2Proof Sys2Proof.Machine

/-- The vectors' `Z0`: after POWER_ON, storage bound. -/
def z0 : State := { State.reset with storage := .bound 0 }

/-- `Z0` in a mode. -/
def inMode (m : Mode) : State := { z0 with mode := m }

/-- The answer is a next state with a property. -/
def answers (r : Result) (p : State → Bool) : Bool :=
  match r with
  | .next t => p t
  | .fault _ => false
  | .refused _ => false

/-- The answer is a fault. -/
def faults (r : Result) (f : Fault) : Bool :=
  match r with
  | .next _ => false
  | .fault g => f == g
  | .refused _ => false

/-- The four device fields, as the vectors list them. -/
def fields (t : State) : Mode × Latch × Word × Word := (t.mode, t.status, t.eraseOffset, t.writePointer)

/-! ## What WellFormed refuses -/

theorem test_initialize_handle_too_wide_refused : (Instr.initializeStorage (2 ^ 32)).wf = false := by decide
theorem test_format_buffer_too_wide_refused : (Instr.format (2 ^ 32)).wf = false := by decide
theorem test_widest_handle_accepted : (Instr.initializeStorage (2 ^ 32 - 1)).wf = true := by decide
theorem test_packet_tag_refused : (Packet.mk 9 0 0 0).wf = false := by decide
theorem test_packet_lane0_refused : (Packet.mk 7 1 0 0).wf = false := by decide
theorem test_packet_lane1_refused : (Packet.mk 0 0 1 0).wf = false := by decide
theorem test_packet_lane2_refused : (Packet.mk 8 0 0 1).wf = false := by decide
theorem test_full_packet_accepted : (Packet.mk 5 1 2 3).wf = true := by decide

/-! ## Words written out from the encodings (30_encoding.md R61, R62, R73; vectors TC01 to TC22, TR12) -/

theorem test_decode_erase_setup :
    decodeTableWord 32 0b01001011000000000000000000000101 = some (.eraseSetup 5) := by decide
theorem test_decode_erase_mode : decodeTableWord 32 0b01111000101010111100110111101111 = some .eraseMode := by decide
theorem test_decode_erase_offset :
    decodeTableWord 32 0b10100101111111111000000000000001 = some (.eraseOffset 0x8001) := by decide
theorem test_decode_write_mode : decodeTableWord 32 0b10110100000000000000000000000000 = some .writeMode := by decide
theorem test_decode_execute : decodeTableWord 32 0b11010010111111111111111111111111 = some .execute := by decide
theorem test_decode_status_mode : decodeTableWord 32 0b11100001000000000000000000000000 = some .statusMode := by decide
theorem test_decode_read_mode : decodeTableWord 32 0b11110000000000000000000000000000 = some .readMode := by decide
theorem test_decode_unrecognized :
    decode (.command 0xD3000000) = .rejected (.unrecognizedCommand 0xD3000000) := by decide
theorem test_decode_reg_read_status : decodeTableWord 8 0b0000 = some (.regReadStatus 0) := by decide
theorem test_decode_reg_write_status : decodeTableWord 8 0b0001 = some (.regWriteStatus 0 0 0) := by decide
theorem test_decode_reg_read_command : decodeTableWord 8 0b0010 = some (.regReadCommand 0) := by decide
theorem test_decode_reg_write_command : decodeTableWord 8 0b0011 = some (.regWriteCommand 0 0 0) := by decide
theorem test_decode_dma_to_ram : decodeTableWord 8 0b0100 = some (.dmaToRam 0 0 0) := by decide
theorem test_decode_dma_from_ram : decodeTableWord 8 0b0101 = some (.dmaFromRam 0 0 0) := by decide
theorem test_decode_initialize : decodeTableWord 8 0b0110 = some (.initializeStorage 0) := by decide
theorem test_decode_power_on : decodeTableWord 8 0b0111 = some .powerOn := by decide
theorem test_decode_format : decodeTableWord 8 0b1000 = some (.format 0) := by decide
theorem test_decode_refused_tag : decode (.packet ⟨0b1001, 0, 0, 0⟩) = .rejected (.refusedTag 9) := by decide

/-- The operands come from the lanes in the order of R73. -/
theorem test_decode_lanes : decodePacket ⟨4, 0x2000, 0x08000040, 0x7F⟩ = some (.dmaToRam 0x2000 0x08000040 0x7F) := by
  decide

/-! ## One step of each instruction (95_test_vectors.md) -/

/-- TC02. -/
theorem test_erase_setup : answers (step (z0.withFetchWord 32 0x4BFF0003))
    (fun t => fields t = (.idle, 0#64, 0x180#32, 0#32) && t.events = []) = true := by decide
/-- TC03: no fault at the command. -/
theorem test_erase_setup_last_page : answers (step (z0.withFetchWord 32 0x4B00FFFF))
    (fun t => t.eraseOffset = 0x7FFF80#32) = true := by decide
/-- TC07. -/
theorem test_erase_mode : answers (step ({ z0 with eraseOffset := 0x280 }.withFetchWord 32 0x78ABCDEF))
    (fun t => fields t = (.erase, 0x1111800800C20000#64, 0x280#32, 0#32)) = true := by decide
/-- TC08. -/
theorem test_erase_offset : answers (step (z0.withFetchWord 32 0xA5000003))
    (fun t => fields t = (.erase, 0x1111800400C20000#64, 0x180#32, 0#32)) = true := by decide
/-- TC09. -/
theorem test_write_mode : answers (step (z0.withFetchWord 32 0xB4000000))
    (fun t => fields t = (.write, 0#64, 0#32, 0#32)) = true := by decide
/-- TC10. -/
theorem test_status_mode : answers (step (z0.withFetchWord 32 0xE1000000))
    (fun t => fields t = (.status, 0x1111800100C20000#64, 0#32, 0#32)) = true := by decide
/-- TC11. -/
theorem test_read_mode : answers (step (z0.withFetchWord 32 0xF0000000))
    (fun t => fields t = (.read, 0x11118004F0000000#64, 0#32, 0#32)) = true := by decide
/-- TC15: page 0 only; the byte after it stays. -/
theorem test_execute_erases : answers (exec .execute
      { inMode .erase with store := [(0, 0#8), (0x7F, 0#8), (0x80, 0#8)] })
    (fun t => t.mode = .idle && t.store = [(0x80, 0#8)] && t.events = [.save]) = true := by decide +kernel
/-- TC29: an unaligned source, seen in the first four bytes of the page. -/
theorem test_execute_programs : answers (exec .execute
      { inMode .write with writePointer := 0x1001, ram := [(0x1000, 1), (0x1001, 2), (0x1002, 3), (0x1007, 4)] })
    (fun t => [t.storeByte 0 0, t.storeByte 0 1, t.storeByte 0 2, t.storeByte 0 3] = [4#8, 1#8, 2#8, 3#8]) = true := by
  decide +kernel
/-- TR01. -/
theorem test_reg_read_status : answers (exec (.regReadStatus 0x08000000)
      { inMode .status with status := 0x1111800100C20000 })
    (fun t => t.returned = some 0x11118001#32 && t.events = []) = true := by decide
/-- TR04, less the draw. -/
theorem test_reg_read_status_bad_address : answers (exec (.regReadStatus 0x0800FFFF) z0)
    (fun t => t.events = [.diag (.badStatusReadAddr 0x0800FFFF)]) = true := by decide
/-- TR07. -/
theorem test_reg_write_status : answers (exec (.regWriteStatus 0x08000002 0xFFFFFFFF 0xFFFFFFFF) z0)
    (fun t => t = z0) = true := by decide
/-- TR08. -/
theorem test_reg_read_command : answers (exec (.regReadCommand 0x08010002) z0)
    (fun t => t.returned = some 0#32 && t.events = []) = true := by decide
/-- TR12. -/
theorem test_reg_write_command : answers (exec (.regWriteCommand 0x08010000 0x4B123456 0xFF00FFFF) z0)
    (fun t => t.eraseOffset = 0x1A2B00#32) = true := by decide
/-- TR10. -/
theorem test_reg_write_command_masked : answers (exec (.regWriteCommand 0x08010000 0xD2000000 0x00FFFFFF)
      (inMode .status))
    (fun t => t.mode = .status && t.events = [.diag (.unknownCommand 0)]) = true := by decide
/-- TD08. -/
theorem test_dma_to_ram_status : answers (exec (.dmaToRam 0x101 0 7)
      { inMode .status with status := 0x1111800100C20000 })
    (fun t => t.ram = [(0x100, 0x80#8), (0x101, 0x11#8), (0x102, 0x11#8), (0x105, 0xC2#8), (0x107, 0x01#8)]) =
    true := by decide
/-- TD11: the last two bytes of the device. -/
theorem test_dma_to_ram_read : answers (exec (.dmaToRam 0x2000 0x0000FFFF 1)
      { inMode .read with store := [(0x1FFFC, 7#8), (0x1FFFD, 8#8), (0x1FFFE, 9#8)] })
    (fun t => t.ram = [(0x2002, 7#8), (0x2003, 8#8)] && t.mode = .read) = true := by decide
/-- TD21, its second transaction. -/
theorem test_dma_from_ram : answers (exec (.dmaFromRam 0x2000 0 0x00FFFFFF) { inMode .write with writePointer := 0x1000 })
    (fun t => t.writePointer = 0x2000#32 && t.events = []) = true := by decide
/-- TD23, in Erase mode. -/
theorem test_dma_from_ram_mismatch : answers (exec (.dmaFromRam 0x1000 0 0x7F) (inMode .erase))
    (fun t => t.writePointer = 0#32 && t.events = [.diag (.dmaFromRamMode .erase)]) = true := by decide
/-- INITIALIZE binds also over an earlier binding (70_reset_and_hazards.md R133). -/
theorem test_initialize : answers (exec (.initializeStorage 9) (inMode .read))
    (fun t => t = { inMode .read with storage := .bound 9 }) = true := by decide
/-- POWER_ON keeps the binding and the buffers (70_reset_and_hazards.md R134). -/
theorem test_power_on : answers (exec .powerOn
      { inMode .write with status := 5, eraseOffset := 6, writePointer := 7, ram := [(1, 2#8)] })
    (fun t => t = { z0 with ram := [(1, 2#8)] }) = true := by decide
/-- FORMAT fills the named buffer and no other, and emits nothing (70_reset_and_hazards.md R136). -/
theorem test_format : answers (exec (.format 1) { z0 with store := [(0x1FFFF, 1#8), (0x20000, 2#8), (0x40000, 3#8)] })
    (fun t => t.store = [(0x1FFFF, 1#8), (0x40000, 3#8)] && t.events = []) = true := by decide

/-- A launch gives handle 1 its artifact, by physical index, and no other buffer (70_reset_and_hazards.md R137). -/
theorem test_launch : ((State.reset.launch [(0, [7#8]), (1, [5#8, 0xFF#8, 6#8])]).store =
    [(0, 7#8), (0x20000, 5#8), (0x20002, 6#8)]) := by decide

/-! ## Where the block stops (60_exceptions.md R123, R124) -/

/-- TC25. -/
theorem test_fault_store_range : faults (exec .execute { inMode .write with eraseOffset := 0x20000 })
    (.outOfRange .store 0x20000 .execute) = true := by decide
/-- TC28: STORE is checked before RAM. -/
theorem test_fault_store_before_ram :
    faults (exec .execute { inMode .write with eraseOffset := 0x20000, writePointer := 0x3FFFC0 })
      (.outOfRange .store 0x20000 .execute) = true := by decide
/-- TD15. -/
theorem test_fault_ram_range : faults (exec (.dmaToRam 0x3FFFC0 0 0x7F) (inMode .read))
    (.outOfRange .ram 0x40003F .dmaToRam) = true := by decide
/-- TD16. -/
theorem test_fault_unbound : faults (exec (.dmaToRam 0x2000 0 0x7F) { State.reset with mode := .read })
    (.unbound .dmaToRam) = true := by decide
/-- 30_encoding.md R73: a tag that is no transaction. -/
theorem test_fault_refused_tag : faults (step (z0.withFetchWord 8 0x0F)) (.refusedTag 15) = true := by decide

/-! ## Witnesses: each meets all the hypotheses of the obligation it is named after -/

theorem witness_OpcodeByteSelectsCommand :
    (0x4B12FFFF#32).extractLsb' 24 8 = 0x4B#8 ∧ (0x78000000#32).extractLsb' 24 8 = 0x78#8 ∧
    (0xA500FFFF#32).extractLsb' 24 8 = 0xA5#8 ∧ (0xB4000000#32).extractLsb' 24 8 = 0xB4#8 ∧
    (0xD2FFFFFF#32).extractLsb' 24 8 = 0xD2#8 ∧ (0xE1000000#32).extractLsb' 24 8 = 0xE1#8 ∧
    (0xF0FFFFFF#32).extractLsb' 24 8 = 0xF0#8 ∧
    (0xFFFFFFFF#32).extractLsb' 24 8 ∉ [0x4B#8, 0x78#8, 0xA5#8, 0xB4#8, 0xD2#8, 0xE1#8, 0xF0#8] ∧
    (0x00000000#32).extractLsb' 24 8 ∉ [0x4B#8, 0x78#8, 0xA5#8, 0xB4#8, 0xD2#8, 0xE1#8, 0xF0#8] := by decide

theorem witness_TagSelectsTransaction : 9 ≤ (9#4).toNat ∧ 9 ≤ (15#4).toNat := by decide

theorem witness_DecodeInvertsEncode :
    (Instr.eraseSetup 0xFFFF).wf = true ∧ (Instr.format (2 ^ 32 - 1)).wf = true := by decide

theorem witness_EncodeInvertsDecode :
    (Code.command 0xA500FFFF).canonical = true ∧ decode (.command 0xA500FFFF) = .instr (.eraseOffset 0xFFFF) ∧
    (Code.packet ⟨6, 0xFFFFFFFF, 0, 0⟩).canonical = true ∧
    decode (.packet ⟨6, 0xFFFFFFFF, 0, 0⟩) = .instr (.initializeStorage 0xFFFFFFFF) := by decide

theorem witness_StepRunsDecodedTransaction :
    (z0.withFetchWord 8 7).port = ⟨7, 0, 0, 0⟩ :: [] ∧ decodePacket ⟨7, 0, 0, 0⟩ = some .powerOn := by decide

theorem witness_StepRunsEveryIssuedInstruction : (Instr.eraseOffset 0xFFFF).wf = true ∧ Instr.powerOn.wf = true := by
  decide

theorem witness_NoTransactionNoStep : z0.port = [] := by decide

theorem witness_EraseSetupSetsOffset : (0x4B000000#32).extractLsb' 24 8 = 0x4B#8 := by decide
theorem witness_EraseModeEntersErase : (0x78ABCDEF#32).extractLsb' 24 8 = 0x78#8 := by decide
theorem witness_EraseOffsetEntersErase : (0xA5000003#32).extractLsb' 24 8 = 0xA5#8 := by decide
theorem witness_WriteModeKeepsStatus : (0xB4000000#32).extractLsb' 24 8 = 0xB4#8 := by decide
theorem witness_StatusModeEntersStatus : (0xE1000000#32).extractLsb' 24 8 = 0xE1#8 := by decide
theorem witness_ReadModeEntersRead : (0xF0000000#32).extractLsb' 24 8 = 0xF0#8 := by decide

theorem witness_ExecuteWithoutEffect :
    (inMode .idle).mode = .idle ∧ (inMode .read).mode = .read ∧ (inMode .status).mode = .status := by decide

/-- The last page of the device, and the page after it. -/
theorem witness_ExecuteErasesOnePage :
    (inMode .erase).mode = .erase ∧ (inMode .erase).storage = .bound 0 ∧
    { inMode .erase with storage := .unbound }.storage = .unbound ∧
    (0x1FF80#32).toNat + 128 ≤ 0x20000 ∧ (0x1FF80#32).toNat % 128 = 0 ∧ 0x20000 < (0x20000#32).toNat + 128 ∧
    (0x1FF80#32).toNat ≤ 0x1FFFF ∧ 0x1FFFF < (0x1FF80#32).toNat + 128 ∧
    (∀ l, (0x1FF80#32).toNat ≤ l → l < (0x1FF80#32).toNat + 128 → bufferAddress 1 0 ≠ bufferAddress 0 (phys l)) := by
  refine ⟨rfl, rfl, rfl, by decide, by decide, by decide, by decide, by decide, fun l _ hl => ?_⟩
  have := (phys_lt (l := l) (size := 0x20000) rfl).mpr (by simp at hl; omega)
  simp only [bufferAddress, Config.flashramSize]
  omega

/-- The last page, the page after it, the last source that fits RAM, and the first that does not. -/
theorem witness_ExecuteProgramsOnePage :
    (inMode .write).mode = .write ∧ (inMode .write).storage = .bound 0 ∧
    { inMode .write with storage := .unbound }.storage = .unbound ∧
    (0x1FF80#32).toNat + 128 ≤ 0x20000 ∧ 0x20000 < (0x20000#32).toNat + 128 ∧
    (0x3FFF80#32).toNat + 128 ≤ z0.ramSize ∧ z0.ramSize < (0x3FFF81#32).toNat + 128 ∧
    (0x1FF80#32).toNat % 4 = 0 ∧ (0x3FFF80#32).toNat % 4 = 0 ∧
    (∀ i < 128, bufferAddress 1 0 ≠ bufferAddress 0 (phys ((0x1FF80#32).toNat + i))) := by
  refine ⟨rfl, rfl, rfl, by decide, by decide, by decide, by decide, by decide, by decide, fun i hi => ?_⟩
  have := (phys_lt (l := (0x1FF80#32).toNat + i) (size := 0x20000) rfl).mpr (by simp; omega)
  simp only [bufferAddress, Config.flashramSize]
  omega

/-- Mode code 7, as in TC17. -/
theorem witness_ExecuteUnknownModeReports : (inMode (.unknown 2)).mode = .unknown 2 ∧ (Mode.unknown 2).code = 7 := by
  decide

/-- EXECUTE answers in Erase mode. -/
theorem witness_execute_answers : ∃ t, exec .execute (inMode .erase) = .next t :=
  ⟨_, execExecute_erase rfl rfl (by decide)⟩

theorem witness_ExecuteAlwaysEndsIdle : ∃ t, exec .execute (inMode .erase) = .next t := witness_execute_answers

theorem witness_StatusReadReturnsHighHalf :
    (0x12340000#32).extractLsb' 0 16 = 0#16 ∧ (0x08000001#32).extractLsb' 0 16 ≠ 0#16 ∧
    (0x0800FFFF#32).extractLsb' 0 16 ≠ 0#16 := by decide

theorem witness_CommandWriteDispatches :
    (0xFFFF0000#32).extractLsb' 0 16 = 0#16 ∧ decodeCommand (0x78000000#32 &&& 0xFFFFFFFF#32) = some .eraseMode ∧
    decodeCommand (0xD2000000#32 &&& 0x00FFFFFF#32) = none ∧ (0x08010004#32).extractLsb' 0 16 ≠ 0#16 := by decide

theorem witness_CommandWriteCompletes :
    (0x08010000#32).extractLsb' 0 16 = 0#16 ∧ decodeCommand (0xD2000000#32 &&& 0xFFFFFFFF#32) = some .execute ∧
    (inMode .erase).executeReady ∧ (inMode .write).executeReady := by decide

theorem witness_UnrecognizedCommandReports :
    (0x08010000#32).extractLsb' 0 16 = 0#16 ∧
    (0xD3000000#32 &&& 0xFFFFFFFF#32).extractLsb' 24 8 ∉
      [0x4B#8, 0x78#8, 0xA5#8, 0xB4#8, 0xD2#8, 0xE1#8, 0xF0#8] := by decide

theorem witness_MaskClearsOpcodeBits : (0x00FFFFFF#32).extractLsb' 24 8 = 0#8 := by decide

/-- The last base that fits RAM, and the first that does not. -/
theorem witness_StatusDmaWritesStatusWord :
    (inMode .status).mode = .status ∧ (0x3FFFF8#32).toNat + 8 ≤ z0.ramSize ∧ z0.ramSize < (0x3FFFF9#32).toNat + 8 := by
  decide

/-- Both ends of the device and of RAM: the last count that fits, and one more. -/
theorem witness_ReadDmaCopiesStorage :
    (inMode .read).mode = .read ∧ (inMode .read).storage = .bound 0 ∧
    { inMode .read with storage := .unbound }.storage = .unbound ∧
    0x20000 < (0x0000FFFF#32).toNat % 0x10000 * 2 + ((2#32).toNat % 0x1000000 + 1) ∧
    (0x0000FFFF#32).toNat % 0x10000 * 2 + ((1#32).toNat % 0x1000000 + 1) ≤ 0x20000 ∧
    z0.ramSize < (0x3FFFFF#32).toNat + ((1#32).toNat % 0x1000000 + 1) ∧
    (0x3FFFFE#32).toNat + ((1#32).toNat % 0x1000000 + 1) ≤ z0.ramSize ∧
    (∀ i < (1#32).toNat % 0x1000000 + 1, 0 ≠ phys ((0x3FFFFE#32).toNat + i)) := by decide

theorem witness_AlignedReadDmaIsBlockCopy :
    (inMode .read).mode = .read ∧ (inMode .read).storage = .bound 0 ∧ (0x2000#32).toNat % 4 = 0 ∧
    dmaSource 0x40#32 % 4 = 0 ∧ dmaCount 0x7F#32 % 4 = 0 ∧
    ∃ t, exec (.dmaToRam 0x2000#32 0x40#32 0x7F#32) (inMode .read) = .next t :=
  ⟨rfl, rfl, by decide, by decide, by decide, _, execDmaToRam_read _ _ _ rfl rfl (by decide) (by decide)⟩

theorem witness_DmaToRamMismatchReports :
    (inMode .write).mode ≠ .status ∧ (inMode .write).mode ≠ .read ∧ (inMode (.unknown 0)).mode ≠ .status ∧
    (inMode (.unknown 0)).mode ≠ .read := by decide

theorem witness_DmaFromRamLatchesSource : (inMode .write).mode = .write ∧ (inMode .status).mode ≠ .write := by decide

theorem witness_DmaReturnsFixedCost :
    (∃ t, exec (.dmaFromRam 0 0 0) (inMode .write) = .next t) ∧ ∃ t, exec (.dmaToRam 0 0 0) z0 = .next t :=
  ⟨⟨_, rfl⟩, ⟨_, rfl⟩⟩

theorem witness_DmaToRamIsIdempotent :
    ∃ t, exec (.dmaToRam 0x2000#32 0x40#32 0x7F#32) (inMode .read) = .next t :=
  ⟨_, execDmaToRam_read _ _ _ rfl rfl (by decide) (by decide)⟩

theorem witness_PowerOnIdempotentAndIndependent :
    (∃ t, exec .powerOn z0 = .next t) ∧ ∃ t, exec .powerOn (inMode (.unknown 2)) = .next t :=
  ⟨⟨_, rfl⟩, ⟨_, rfl⟩⟩

theorem witness_FormatFillsBuffer : 0x1FFFF < 0x20000 ∧ ∀ p < 0x20000, bufferAddress 1 0 ≠ bufferAddress 0 p :=
  ⟨by decide, fun p hp => by simp only [bufferAddress, Config.flashramSize]; omega⟩

theorem witness_LaunchArgumentIsInitialStore :
    (List.replicate 0x20000 0x5A#8).length = 0x20000 ∧ 0x1FFFF < 0x20000 ∧
    (∀ p < 0x20000, bufferAddress 1 0 ≠ bufferAddress 0 p) ∧ Memory.wf storeUnlisted State.cold.store :=
  ⟨List.length_replicate, by decide, witness_FormatFillsBuffer.2, Memory.wf_nil _⟩

theorem witness_AdapterReversesGroups : 3 < 4 := by decide

/-- A listed writer, and a transaction that carries out none. -/
theorem witness_OnlyListedRulesWriteMode :
    (∃ t, exec .readMode z0 = .next t) ∧ (∃ t, exec .powerOn z0 = .next t) ∧
    ∃ t, exec (.regWriteCommand 0x08010004 0xD2000000 0xFFFFFFFF) (inMode .read) = .next t :=
  ⟨⟨_, rfl⟩, ⟨_, rfl⟩, ⟨_, rfl⟩⟩

/-- A listed writer, and a transaction that carries out none. -/
theorem witness_OnlyListedRulesWriteStatus :
    (∃ t, exec (.regWriteCommand 0x08010000 0xE1FFFFFF 0xFF000000) z0 = .next t) ∧
    ∃ t, exec (.regWriteStatus 0x08000000 0 0xFFFFFFFF) z0 = .next t := ⟨⟨_, rfl⟩, ⟨_, rfl⟩⟩

theorem witness_OnlyListedRulesWriteEraseOffset : ∃ t, exec (.eraseOffset 0xFFFF) z0 = .next t := ⟨_, rfl⟩

theorem witness_OnlyListedRulesWritePointerAndBinding :
    (∃ t, exec (.dmaFromRam 0x1000 0 0) (inMode .write) = .next t) ∧ ∃ t, exec (.initializeStorage 1) z0 = .next t :=
  ⟨⟨_, rfl⟩, ⟨_, rfl⟩⟩

theorem witness_OnlyDmaToRamWritesRam :
    ∃ t, exec (.dmaToRam 0x2000#32 0x40#32 0x7F#32) (inMode .read) = .next t := witness_DmaToRamIsIdempotent

theorem witness_AtMostOneEvent : ∃ t, exec .execute (inMode .erase) = .next t := witness_execute_answers

theorem witness_StoreChangesOnlyWithSave :
    (∃ t, exec .execute (inMode .erase) = .next t) ∧ ∃ t, exec (.format 0) z0 = .next t :=
  ⟨witness_execute_answers, ⟨_, rfl⟩⟩

/-- A transaction that completes, and one that faults. -/
theorem witness_RamBytesReachOnlyBuffers :
    (∃ t, exec .execute (inMode .write) = .next t) ∧
    exec .execute { inMode .write with writePointer := 0x3FFFC0 } = .fault (.outOfRange .ram 0x3FFFC0 .execute) :=
  ⟨⟨_, execExecute_write rfl rfl (by decide) (by decide)⟩, rfl⟩

/-- A transaction that completes, and one that is a listed fault. -/
theorem witness_CompletesUnlessListedFault :
    (inMode .erase).executeReady ∧ (inMode .read).dmaReady 0x3FFFFE 0xFFFF 1 ∧
    carriedOut .execute = some .execute ∧ ¬ { inMode .erase with eraseOffset := 0x1FF81 }.executeReady := by decide

theorem witness_state_invariants : z0.deviceInv ∧ z0.memoryInv ∧ z0.ramInv :=
  ⟨⟨by decide, by decide, by decide, .inl rfl⟩, ⟨by decide, by decide⟩, ⟨by decide, by decide, by decide⟩⟩

theorem witness_DeviceInvariantKept :
    (z0.withFetchWord 32 0xE1000000).deviceInv ∧ ∃ t, step (z0.withFetchWord 32 0xE1000000) = .next t :=
  ⟨⟨by decide, by decide, by decide, .inl rfl⟩, _, rfl⟩

theorem witness_CanonicalMemoriesKept :
    (z0.withFetchWord 8 8).memoryInv ∧ ∃ t, step (z0.withFetchWord 8 8) = .next t :=
  ⟨⟨by decide, by decide⟩, _, rfl⟩

theorem witness_RamStaysInsideItsSize :
    (z0.withFetchWord 8 4).ramInv ∧ ∃ t, steps 2 (z0.withFetchWord 8 4) = .next t :=
  ⟨⟨by decide, by decide, by decide⟩, _, rfl⟩

theorem witness_DmaAfterExecuteMovesNothing : ∃ t, exec .execute (inMode .erase) = .next t := witness_execute_answers

theorem witness_EraseOffsetCancelsProgram :
    (inMode .write).mode = .write ∧ (inMode .write).storage = .bound 0 ∧ (1023#16).toNat < 1024 ∧ 0x1FFFF < 0x20000 := by
  decide

theorem witness_EraseThenReadGivesErasedPage :
    z0.storage = .bound 0 ∧ (1023#16).toNat < 1024 ∧ (0x3FFF80#32).toNat + 128 ≤ z0.ramSize ∧
    (0x0800FFC0#32).toNat % 0x10000 = 64 * (1023#16).toNat ∧
    ¬ ((1023#16).toNat * 128 ≤ 0x1FF7F ∧ 0x1FF7F < (1023#16).toNat * 128 + 128) := by decide

theorem witness_ProgramThenReadRoundTrip :
    z0.storage = .bound 0 ∧ (1023#16).toNat < 1024 ∧ (0x1001#32).toNat + 128 ≤ z0.ramSize ∧
    (0x3FFF80#32).toNat + 128 ≤ z0.ramSize ∧ (0x0800FFC0#32).toNat % 0x10000 = 64 * (1023#16).toNat := by decide

theorem witness_ProgramUsesRamAtExecute :
    ∃ t u, exec (.dmaFromRam 0x1001 0 0x7F) (inMode .write) = .next t ∧
      exec .execute { t with ram := [(0x1002, 5#8)] } = .next u :=
  ⟨_, _, rfl, execExecute_write (s := { (inMode .write) with
    writePointer := 0x1001, returned := some Config.dmaCost, ram := [(0x1002, 5#8)] }) (h := 0) rfl rfl
    (by decide) (by decide)⟩

end Sys2Proof.Tests
end

/-! # The step (00_scope.md R1)

A step is `exec` of what the oldest packet decodes to, and the delivery of an instruction's code decodes to that
instruction, directly or through the command register write. -/

section

namespace Sys2Proof

open Laws.CanonicalCode (decode_setup decode_offset)

/-- The decoder inverts the encoder; only a handle or a buffer needs its number to fit the lane. -/
theorem decode_encode {i : Instr} (hwf : i.wf = true) : decode (encode i) = .instr i := by
  cases i with
  | eraseSetup page => simp only [encode, decode, decode_setup]
  | eraseOffset page => simp only [encode, decode, decode_offset]
  | eraseMode | writeMode | execute | statusMode | readMode => decide
  | initializeStorage n | format n =>
    have hfits : n < 2 ^ 32 := of_decide_eq_true hwf
    have hlane : (BitVec.ofNat 32 n).toNat = n := Nat.mod_eq_of_lt hfits
    simp [encode, packetOf, decode, decodePacket, hlane]
  | _ => rfl

theorem decode_command_eq_instr {w : Word} {i : Instr} :
    decode (.command w) = .instr i ↔ decodeCommand w = some i := by
  cases h : decodeCommand w <;> simp [decode, h]

theorem decode_packet_eq_instr {p : Packet} {i : Instr} :
    decode (.packet p) = .instr i ↔ decodePacket p = some i := by
  cases h : decodePacket p <;> simp [decode, h]

namespace Machine

theorem step_of_port_nil {s : State} (hport : s.port = []) : step s = .next s := by
  simp only [step, State.take, hport]

theorem step_of_decodePacket {s : State} {p : Packet} {rest : List Packet} {i : Instr}
    (hport : s.port = p :: rest) (hp : decodePacket p = some i) : step s = exec i { s with port := rest } := by
  simp only [step, State.take, hport, hp]
  rfl

theorem maskedCommand_allOnes (w : Word) : maskedCommand w 0xFFFFFFFF#32 = w := BitVec.and_allOnes

theorem exec_regWriteCommand_of_valid {a : Word} (ha : addressValid a = true) (v m : Word) (s : State) :
    exec (.regWriteCommand a v m) s = executeCommand (maskedCommand v m) s := by
  simp only [exec, execRegWriteCommand, ha, if_true]

/-- A recognized command word, written to the command register as `Code.delivery` writes it, runs its command
(41_register_access.md R102). -/
theorem exec_deliveredCommand {w : Word} {i : Instr} (hw : decodeCommand w = some i) (s : State) :
    exec (.regWriteCommand commandAddress w 0xFFFFFFFF#32) s = exec i s := by
  have hvalid : addressValid commandAddress = true := by decide
  calc exec (.regWriteCommand commandAddress w 0xFFFFFFFF#32) s
      = executeCommand (maskedCommand w 0xFFFFFFFF#32) s := exec_regWriteCommand_of_valid hvalid w _ s
    _ = exec i s := by rw [maskedCommand_allOnes, executeCommand_eq, hw]

/-- A code that is an instruction, delivered at the head of the port, is run by the next step. -/
theorem step_delivery {c : Code} {i : Instr} (hc : decode c = .instr i) (s : State) (rest : List Packet) :
    step { s with port := c.delivery :: rest } = exec i { s with port := rest } := by
  cases c with
  | command w =>
    calc step { s with port := (Code.command w).delivery :: rest }
        = exec (.regWriteCommand commandAddress w 0xFFFFFFFF#32) { s with port := rest } :=
          step_of_decodePacket rfl rfl
      _ = exec i { s with port := rest } := exec_deliveredCommand (decode_command_eq_instr.mp hc) _
  | packet p => exact step_of_decodePacket rfl (decode_packet_eq_instr.mp hc)

/-- Settles O7: the code of a well-formed instruction decodes to it, and a step runs what its packet delivers. -/
theorem stepRunsEveryIssuedInstruction : Obligations.StepRunsEveryIssuedInstruction :=
  fun s _ rest hwf => step_delivery (decode_encode hwf) s rest

/-- Settles O6. -/
theorem stepRunsDecodedTransaction : Obligations.StepRunsDecodedTransaction :=
  fun _ _ _ _ hport hp => step_of_decodePacket hport hp

/-- Settles O8. -/
theorem noTransactionNoStep : Obligations.NoTransactionNoStep :=
  fun _ hport => step_of_port_nil hport

end Machine

end Sys2Proof

end

/-! # The device record (10_state.md R16 to R32)

`deviceAfter` says what R21, R23, R25, R27 and R28 say: the one value each listed writer gives a device field.
`exec_frame` ties it to the model; the rules about single fields and the invariants of R32 follow from it. -/

section

namespace Sys2Proof.Machine

/-! ## The frame of a transaction -/

/-- An EXECUTE writes no field of the device before its end, which writes the mode. -/
theorem executeBranch_frame {s t : State} (e : executeBranch s = .next t) :
    t = { s with store := t.store, events := t.events } := by
  rcases executeBranch_cases e with ⟨-, rfl⟩ | ⟨-, e⟩ | ⟨-, e⟩ | ⟨n, -, rfl⟩
  · rfl
  · obtain ⟨h, -, -, rfl⟩ := eraseBranch_eq_next.mp e
    rw [State.writeStore_eq, State.emitSave_eq]
  · obtain ⟨h, -, -, -, rfl⟩ := writeBranch_eq_next.mp e
    rw [State.writeStore_eq, State.emitSave_eq]
  · rfl

/-- A DMA_TO_RAM writes no field of the device (42_dma.md R106). -/
theorem dmaToRamBranch_frame {r f l : Word} {s t : State} (e : dmaToRamBranch r f l s = .next t) :
    t = { s with ram := t.ram, events := t.events } := by
  rcases dmaToRamBranch_cases e with ⟨-, e⟩ | ⟨-, e⟩ | ⟨-, -, rfl⟩
  · obtain ⟨-, rfl⟩ := dmaStatusBranch_eq_next.mp e
    rw [State.writeRam_eq]
  · obtain ⟨h, -, -, -, rfl⟩ := dmaReadBranch_eq_next.mp e
    rw [State.writeRam_eq]
  · rfl

/-- The state with the device fields as the operation a transaction carries out leaves them; `none` is a command
register write that carries out no command. -/
def deviceAfter : Option Instr → State → State
  | some (.eraseSetup page), s => s.setEraseOffset (pageOffset page)
  | some .eraseMode, s => (s.setMode .erase).setStatus statusEraseMode
  | some (.eraseOffset page), s =>
    ((s.setEraseOffset (pageOffset page)).setMode .erase).setStatus statusErasePending
  | some .writeMode, s => s.setMode .write
  | some .execute, s => s.setMode .idle
  | some .statusMode, s => (s.setMode .status).setStatus statusStatusMode
  | some .readMode, s => (s.setMode .read).setStatus statusReadMode
  | some (.dmaFromRam ramAddr _ _), s =>
    s.setWritePointer (if s.mode = .write then ramAddr else s.writePointer)
  | some (.initializeStorage handle), s => s.setStorage (.bound handle)
  | some .powerOn, s => (((s.setMode .idle).setStatus 0#64).setEraseOffset 0#32).setWritePointer 0#32
  | some (.regReadStatus _), s => s
  | some (.regWriteStatus _ _ _), s => s
  | some (.regReadCommand _), s => s
  | some (.regWriteCommand _ _ _), s => s
  | some (.dmaToRam _ _ _), s => s
  | some (.format _), s => s
  | none, s => s

/-- A DMA_FROM_RAM latches its address in Write mode and otherwise writes no field of the device
(42_dma.md R111, R112). -/
theorem dmaFromRamBranch_frame {r f l : Word} {s t : State} (e : dmaFromRamBranch r s = .next t) :
    t = { deviceAfter (some (.dmaFromRam r f l)) s with events := t.events } := by
  rcases dmaFromRamBranch_cases r s with ⟨hm, answer⟩ | ⟨hm, answer⟩
  · obtain rfl := Host.Outcome.next.inj (answer.symm.trans e)
    simp only [deviceAfter, if_pos hm]
  · obtain rfl := Host.Outcome.next.inj (answer.symm.trans e)
    simp only [deviceAfter, if_neg hm]
    rfl

/-- Whatever else a transaction does to the buffers and the outputs, it leaves the device, the size of RAM and the
port as `deviceAfter` says. -/
theorem exec_frame {i : Instr} {s t : State} (e : exec i s = .next t) :
    t = { deviceAfter (carriedOut i) s with
      store := t.store, ram := t.ram, events := t.events, returned := t.returned, draws := t.draws } := by
  rcases exec_cases e with ⟨j, hj, -, eff⟩ | ⟨hnone, -, d, rfl⟩
  · rw [hj]
    cases j with
    | execute =>
      obtain ⟨u, hu, rfl⟩ := eff
      rw [executeBranch_frame hu]
      rfl
    | dmaToRam r f l =>
      obtain ⟨u, hu, rfl⟩ := eff
      rw [dmaToRamBranch_frame hu]
      rfl
    | dmaFromRam r f l =>
      obtain ⟨u, hu, rfl⟩ := eff
      rw [dmaFromRamBranch_frame (f := f) (l := l) hu]
      rfl
    | regReadStatus a => rcases eff with rfl | rfl <;> rfl
    | regWriteCommand a v m => exact eff.elim
    | _ =>
      obtain rfl := eff
      rfl
  · rw [hnone]
    rfl

/-- A transaction that carries out no command word is that operation itself. -/
theorem eq_of_carriedOut {i j : Instr} (h : carriedOut i = some j) (hj : isCommand j = false) : i = j := by
  rcases carriedOut_cases h with ⟨hij, -⟩ | ⟨-, hcommand⟩
  · exact hij
  · simp [hj] at hcommand

/-! ## The invariants of R32 -/

namespace State.deviceInv

theorem setMode {s : State} (hs : s.deviceInv) {m : Mode} (hm : m.named = true) : (s.setMode m).deviceInv :=
  { hs with mode_named := hm }

theorem setStatus {s : State} (hs : s.deviceInv) {v : Latch}
    (hv : v ∈ [0#64, statusEraseMode, statusErasePending, statusStatusMode, statusReadMode]) :
    (s.setStatus v).deviceInv :=
  { hs with status_latched := by simpa using hv }

theorem setEraseOffset {s : State} (hs : s.deviceInv) {v : Word} (aligned : v.toNat % 128 = 0)
    (bounded : v.toNat ≤ 0x7FFF80) : (s.setEraseOffset v).deviceInv :=
  { hs with offset_aligned := aligned, offset_bounded := bounded }

theorem setPageOffset {s : State} (hs : s.deviceInv) (page : BitVec 16) :
    (s.setEraseOffset (pageOffset page)).deviceInv :=
  hs.setEraseOffset (pageOffset_bounds page).1 (pageOffset_bounds page).2

/-- The invariants speak of no other field. -/
theorem congr {s t : State} (hs : s.deviceInv) (mode : t.mode = s.mode) (status : t.status = s.status)
    (eraseOffset : t.eraseOffset = s.eraseOffset) : t.deviceInv where
  mode_named := mode ▸ hs.mode_named
  offset_aligned := eraseOffset ▸ hs.offset_aligned
  offset_bounded := eraseOffset ▸ hs.offset_bounded
  status_latched := status ▸ hs.status_latched

/-- Every listed writer gives a mode of the five, a constant of the latch or the offset of a page. -/
theorem after_operation {s : State} (hs : s.deviceInv) (i : Instr) : (deviceAfter (some i) s).deviceInv := by
  cases i with
  | eraseSetup page => exact hs.setPageOffset page
  | eraseMode => exact (hs.setMode rfl).setStatus (by simp)
  | eraseOffset page => exact ((hs.setPageOffset page).setMode rfl).setStatus (by simp)
  | writeMode => exact hs.setMode rfl
  | execute => exact hs.setMode rfl
  | statusMode => exact (hs.setMode rfl).setStatus (by simp)
  | readMode => exact (hs.setMode rfl).setStatus (by simp)
  | powerOn =>
    have hfields := ((hs.setMode (m := .idle) rfl).setStatus (v := 0#64) (by simp)).setEraseOffset (v := 0#32)
      (by decide) (by decide)
    exact hfields.congr rfl rfl rfl
  | _ => exact hs.congr rfl rfl rfl

theorem after_exec {i : Instr} {s t : State} (hs : s.deviceInv) (e : exec i s = .next t) : t.deviceInv := by
  have hafter : (deviceAfter (carriedOut i) s).deviceInv := by
    cases carriedOut i with
    | none => exact hs
    | some j => exact hs.after_operation j
  rw [exec_frame e]
  exact hafter.congr rfl rfl rfl

end State.deviceInv

/-- Settles O51: taking a packet touches no field of the device, and every transaction keeps the invariants. -/
theorem deviceInvariantKept : Obligations.DeviceInvariantKept := by
  intro s t hs e
  rcases step_cases e with ⟨-, rfl⟩ | ⟨p, rest, i, -, -, he⟩
  · exact hs
  · have hport : (s.setPort rest).deviceInv := hs.congr rfl rfl rfl
    exact hport.after_exec he

/-- Settles O54: every field of the reset state is a literal. -/
theorem resetHasInvariants : Obligations.ResetHasInvariants :=
  ⟨{ mode_named := rfl, offset_aligned := rfl, offset_bounded := by decide, status_latched := .inl rfl },
    { store_wf := Memory.wf_nil _, ram_wf := Memory.wf_nil _ },
    { size_words := rfl, size_bounded := by decide, cells_inside := by simp [State.reset] }⟩

/-! ## The writers of each field -/

/-- Settles O41: by the operation carried out, the mode that `deviceAfter` gives it. -/
theorem onlyListedRulesWriteMode : Obligations.OnlyListedRulesWriteMode := by
  intro i s t e
  have hmode : t.mode = (deviceAfter (carriedOut i) s).mode := by rw [exec_frame e]
  cases hi : carriedOut i with
  | none => exact .inl ⟨by rw [hmode, hi]; rfl, by simp⟩
  | some j =>
    rw [hi] at hmode
    cases j with
    | eraseMode => exact .inr (.inl ⟨rfl, hmode⟩)
    | eraseOffset page => exact .inr (.inr (.inl ⟨page, rfl, hmode⟩))
    | writeMode => simp [hmode, deviceAfter]
    | execute => simp [hmode, deviceAfter]
    | statusMode => simp [hmode, deviceAfter]
    | readMode => simp [hmode, deviceAfter]
    | powerOn => simp [hmode, deviceAfter, eq_of_carriedOut hi rfl]
    | _ => exact .inl ⟨hmode, by simp⟩

/-- Settles O42: by the operation carried out, the latch that `deviceAfter` gives it. -/
theorem onlyListedRulesWriteStatus : Obligations.OnlyListedRulesWriteStatus := by
  intro i s t e
  have hstatus : t.status = (deviceAfter (carriedOut i) s).status := by rw [exec_frame e]
  cases hi : carriedOut i with
  | none => exact .inl ⟨by rw [hstatus, hi]; rfl, by simp⟩
  | some j =>
    rw [hi] at hstatus
    cases j with
    | eraseMode => exact .inr (.inl ⟨rfl, hstatus⟩)
    | eraseOffset page => exact .inr (.inr (.inl ⟨page, rfl, hstatus⟩))
    | statusMode => simp [hstatus, deviceAfter]
    | readMode => simp [hstatus, deviceAfter]
    | powerOn => simp [hstatus, deviceAfter, eq_of_carriedOut hi rfl]
    | _ => exact .inl ⟨hstatus, by simp⟩

/-- Settles O43: by the operation carried out, and the offset of a page is exact (30_encoding.md R64). -/
theorem onlyListedRulesWriteEraseOffset : Obligations.OnlyListedRulesWriteEraseOffset := by
  intro i s t e
  have hoffset : t.eraseOffset = (deviceAfter (carriedOut i) s).eraseOffset := by rw [exec_frame e]
  cases hi : carriedOut i with
  | none => exact .inl (by rw [hoffset, hi]; rfl)
  | some j =>
    rw [hi] at hoffset
    cases j with
    | eraseSetup page => exact .inr (.inl ⟨page, .inl rfl, by rw [hoffset]; exact pageOffset_toNat page⟩)
    | eraseOffset page => exact .inr (.inl ⟨page, .inr rfl, by rw [hoffset]; exact pageOffset_toNat page⟩)
    | powerOn => exact .inr (.inr ⟨eq_of_carriedOut hi rfl, hoffset⟩)
    | _ => exact .inl hoffset

theorem writePointer_after_exec {i : Instr} {s t : State} (e : exec i s = .next t) :
    t.writePointer = s.writePointer ∨
      (∃ r f l, i = .dmaFromRam r f l ∧ s.mode = .write ∧ t.writePointer = r) ∨
      (i = .powerOn ∧ t.writePointer = 0#32) := by
  have hpointer : t.writePointer = (deviceAfter (carriedOut i) s).writePointer := by rw [exec_frame e]
  cases hi : carriedOut i with
  | none => exact .inl (by rw [hpointer, hi]; rfl)
  | some j =>
    rw [hi] at hpointer
    cases j with
    | dmaFromRam r f l =>
      by_cases hm : s.mode = .write
      · refine .inr (.inl ⟨r, f, l, eq_of_carriedOut hi rfl, hm, ?_⟩)
        rw [hpointer, deviceAfter, if_pos hm, State.setWritePointer_writePointer]
      · exact .inl (by rw [hpointer, deviceAfter, if_neg hm, State.setWritePointer_writePointer])
    | powerOn => exact .inr (.inr ⟨eq_of_carriedOut hi rfl, hpointer⟩)
    | _ => exact .inl hpointer

theorem storage_after_exec {i : Instr} {s t : State} (e : exec i s = .next t) :
    t.storage = s.storage ∨ ∃ h, i = .initializeStorage h ∧ t.storage = .bound h := by
  have hstorage : t.storage = (deviceAfter (carriedOut i) s).storage := by rw [exec_frame e]
  cases hi : carriedOut i with
  | none => exact .inl (by rw [hstorage, hi]; rfl)
  | some j =>
    rw [hi] at hstorage
    cases j with
    | initializeStorage h => exact .inr ⟨h, eq_of_carriedOut hi rfl, hstorage⟩
    | _ => exact .inl hstorage

/-- Settles O44, from one rule for each of the two fields. -/
theorem onlyListedRulesWritePointerAndBinding : Obligations.OnlyListedRulesWritePointerAndBinding :=
  fun _ _ _ e => ⟨writePointer_after_exec e, storage_after_exec e⟩

/-! ## The numbers of R20 -/

@[simp] theorem Mode.ofCode_code (m : Mode) : Mode.ofCode m.code = m := by
  cases m <;> rfl

@[simp] theorem Mode.code_ofCode (n : Nat) : (Mode.ofCode n).code = n := by
  match n with
  | 0 | 1 | 2 | 3 | 4 => rfl
  | _ + 5 => rfl

/-- Settles O39: the codes are the model's tables, and `Mode.ofCode` inverts `Mode.code`. -/
theorem modeAndDiagnosticNumbers : Obligations.ModeAndDiagnosticNumbers :=
  ⟨rfl, rfl, rfl, rfl, rfl, Mode.ofCode_code, Mode.code_ofCode,
    fun _ => ⟨rfl, rfl, rfl, rfl, rfl, rfl⟩, fun _ => ⟨rfl, rfl, rfl, rfl, rfl, rfl⟩⟩

end Sys2Proof.Machine

end

/-! # The event history is write-only (10_state.md R34)

A meaning that only appends to the history commutes with events put in front of it. -/

section

namespace Sys2Proof.Machine

/-- The state with older events in front of its history. -/
def State.afterEvents (s : State) (old : List Event) : State := { s with events := old ++ s.events }

@[simp] theorem State.afterEvents_emit (s : State) (old : List Event) (e : Event) :
    (s.afterEvents old).emit e = (s.emit e).afterEvents old := by
  simp [State.afterEvents, State.emit]

@[simp] theorem State.afterEvents_emitDiag (s : State) (old : List Event) (d : Diag) :
    (s.afterEvents old).emitDiag d = (s.emitDiag d).afterEvents old :=
  s.afterEvents_emit old (.diag d)

@[simp] theorem State.afterEvents_emitSave (s : State) (old : List Event) :
    (s.afterEvents old).emitSave = s.emitSave.afterEvents old :=
  s.afterEvents_emit old .save

@[simp] theorem State.afterEvents_writeStore (s : State) (old : List Event) (h base n : Nat) (f : Nat → Byte) :
    (s.afterEvents old).writeStore h base n f = (s.writeStore h base n f).afterEvents old := by
  simp only [State.writeStore_eq, State.afterEvents]

@[simp] theorem State.afterEvents_writeRam (s : State) (old : List Event) (base n : Nat) (f : Nat → Byte) :
    (s.afterEvents old).writeRam base n f = (s.writeRam base n f).afterEvents old := by
  simp only [State.writeRam_eq, State.afterEvents]

/-- The answer with older events in front of the history of its next state; a stop stays the same stop. -/
def resultAfterEvents (old : List Event) (r : Result) : Result := andThen r fun t => .next (t.afterEvents old)

@[simp] theorem resultAfterEvents_next (old : List Event) (s : State) :
    resultAfterEvents old (.next s) = .next (s.afterEvents old) := rfl

/-- The transaction does not read the event history. -/
def IgnoresHistory (run : State → Result) : Prop :=
  ∀ (s : State) (old : List Event), run (s.afterEvents old) = resultAfterEvents old (run s)

theorem andThen_resultAfterEvents {run : State → Result} (hrun : IgnoresHistory run) (r : Result)
    (old : List Event) :
    andThen (resultAfterEvents old r) run = resultAfterEvents old (andThen r run) := by
  cases r with
  | next s => exact hrun s old
  | fault f => rfl
  | refused f => rfl

theorem IgnoresHistory.andThen {first second : State → Result} (hfirst : IgnoresHistory first)
    (hsecond : IgnoresHistory second) : IgnoresHistory fun s => andThen (first s) second := by
  intro s old
  calc Machine.andThen (first (s.afterEvents old)) second
      = Machine.andThen (resultAfterEvents old (first s)) second := by rw [hfirst]
    _ = resultAfterEvents old (Machine.andThen (first s) second) := andThen_resultAfterEvents hsecond (first s) old

theorem resultAfterEvents_withStorage (old : List Event) (site : Site) (s : State) (k : Nat → Result) :
    resultAfterEvents old (withStorage site s k) =
      withStorage site (s.afterEvents old) fun h => resultAfterEvents old (k h) := by
  have hstorage : (s.afterEvents old).storage = s.storage := rfl
  cases hs : s.storage with
  | unbound => simp only [withStorage, hstorage, hs]; rfl
  | bound h => simp only [withStorage, hstorage, hs]

theorem resultAfterEvents_checkRange (old : List Event) (site : Site) (buffer : Buffer)
    (base n size reported : Nat) (k : Result) :
    resultAfterEvents old (checkRange site buffer base n size reported k) =
      checkRange site buffer base n size reported (resultAfterEvents old k) := by
  unfold checkRange
  split <;> rfl

/-! ## The branches that can stop or report -/

theorem eraseBranch_ignoresHistory : IgnoresHistory eraseBranch := by
  intro s old
  simp only [eraseBranch, resultAfterEvents_withStorage, resultAfterEvents_checkRange, resultAfterEvents_next,
    State.afterEvents_writeStore, State.afterEvents_emitSave]
  rfl

theorem writeBranch_ignoresHistory : IgnoresHistory writeBranch := by
  intro s old
  simp only [writeBranch, resultAfterEvents_withStorage, resultAfterEvents_checkRange, resultAfterEvents_next,
    State.afterEvents_writeStore, State.afterEvents_emitSave]
  rfl

theorem executeBranch_ignoresHistory : IgnoresHistory executeBranch := by
  intro s old
  have hmode : (s.afterEvents old).mode = s.mode := rfl
  cases hs : s.mode with
  | erase => simpa only [executeBranch, hmode, hs] using eraseBranch_ignoresHistory s old
  | write => simpa only [executeBranch, hmode, hs] using writeBranch_ignoresHistory s old
  | unknown n => simp [executeBranch, hmode, hs]
  | idle | read | status => simp [executeBranch, hmode, hs]

theorem dmaStatusBranch_ignoresHistory (r : Word) : IgnoresHistory (dmaStatusBranch r) := by
  intro s old
  simp only [dmaStatusBranch, resultAfterEvents_checkRange, resultAfterEvents_next, State.afterEvents_writeRam]
  rfl

theorem dmaReadBranch_ignoresHistory (r f l : Word) : IgnoresHistory (dmaReadBranch r f l) := by
  intro s old
  simp only [dmaReadBranch, resultAfterEvents_withStorage, resultAfterEvents_checkRange, resultAfterEvents_next,
    State.afterEvents_writeRam]
  rfl

theorem dmaToRamBranch_ignoresHistory (r f l : Word) : IgnoresHistory (dmaToRamBranch r f l) := by
  intro s old
  have hmode : (s.afterEvents old).mode = s.mode := rfl
  cases hs : s.mode with
  | status => simpa only [dmaToRamBranch, hmode, hs] using dmaStatusBranch_ignoresHistory r s old
  | read => simpa only [dmaToRamBranch, hmode, hs] using dmaReadBranch_ignoresHistory r f l s old
  | idle | erase | write | unknown n => simp [dmaToRamBranch, hmode, hs]

theorem dmaFromRamBranch_ignoresHistory (r : Word) : IgnoresHistory (dmaFromRamBranch r) := by
  intro s old
  have hmode : (s.afterEvents old).mode = s.mode := rfl
  cases hs : s.mode with
  | write => simp only [dmaFromRamBranch, hmode, hs]; rfl
  | idle | erase | read | status | unknown n => simp [dmaFromRamBranch, hmode, hs]

/-! ## Every transaction -/

theorem execRegReadStatus_ignoresHistory (a : Word) : IgnoresHistory (execRegReadStatus a) := by
  intro s old
  unfold execRegReadStatus
  split
  · rfl
  · rw [State.afterEvents_emitDiag]
    rfl

theorem unrecognized_ignoresHistory (w : Word) : IgnoresHistory (unrecognized w) := by
  intro s old
  rw [unrecognized, State.afterEvents_emitDiag]
  rfl

theorem exec_ignoresHistory_of_command {i : Instr} (hi : isCommand i = true) : IgnoresHistory (exec i) := by
  cases i with
  | execute => exact executeBranch_ignoresHistory.andThen fun _ _ => rfl
  | eraseSetup | eraseMode | eraseOffset | writeMode | statusMode | readMode => exact fun _ _ => rfl
  | _ => exact absurd hi (by simp [isCommand])

theorem executeCommand_ignoresHistory (w : Word) : IgnoresHistory (executeCommand w) := by
  intro s old
  rw [executeCommand_eq, executeCommand_eq]
  cases hw : decodeCommand w with
  | some i => exact exec_ignoresHistory_of_command (decodeCommand_isCommand hw) s old
  | none => exact unrecognized_ignoresHistory w s old

theorem execRegWriteCommand_ignoresHistory (a v m : Word) : IgnoresHistory (execRegWriteCommand a v m) := by
  intro s old
  unfold execRegWriteCommand
  split
  · exact executeCommand_ignoresHistory (maskedCommand v m) s old
  · rw [State.afterEvents_emitDiag]
    rfl

theorem exec_ignoresHistory (i : Instr) : IgnoresHistory (exec i) := by
  cases i with
  | eraseSetup | eraseMode | eraseOffset | writeMode | execute | statusMode | readMode =>
    exact exec_ignoresHistory_of_command rfl
  | regReadStatus a => exact execRegReadStatus_ignoresHistory a
  | regWriteCommand a v m => exact execRegWriteCommand_ignoresHistory a v m
  | dmaToRam r f l => exact (dmaToRamBranch_ignoresHistory r f l).andThen fun _ _ => rfl
  | dmaFromRam r f l => exact (dmaFromRamBranch_ignoresHistory r).andThen fun _ _ => rfl
  | regWriteStatus | regReadCommand | initializeStorage | powerOn | format => exact fun _ _ => rfl

/-- Settles O48: no transaction reads the history. -/
theorem historyIsNotRead : Obligations.HistoryIsNotRead :=
  fun i s old => exec_ignoresHistory i s old

end Sys2Proof.Machine

end

/-! # The two buffers (20_memory.md)

`BufferEffect` says once what a transaction can do to RAM and to storage, and `exec_bufferEffect` ties it to the model;
the rules about RAM's writers and the invariants of both memories follow from it. -/

section

namespace Sys2Proof.Machine

/-! ## What a transaction does to the buffers -/

/-- What a transaction can do to the buffers: it writes at most one of them, and only as one of these rules says. -/
inductive BufferEffect (i : Instr) (s t : State) : Prop
  /-- No byte changes. -/
  | untouched (store : t.store = s.store) (ram : t.ram = s.ram)
  /-- An EXECUTE in Erase or Write mode writes one block of a backing buffer (40_commands.md R90, R91). -/
  | page (carried : carriedOut i = some .execute) (mode : s.mode = .erase ∨ s.mode = .write)
      (store : ∃ h base n g, t.store = (s.writeStore h base n g).store) (ram : t.ram = s.ram)
  /-- A FORMAT fills one backing buffer (70_reset_and_hazards.md R136). -/
  | format (buffer : Nat) (instr : i = .format buffer) (store : t.store = (s.formatBuffer buffer).store)
      (ram : t.ram = s.ram)
  /-- A DMA_TO_RAM in Status or Read mode writes one block inside RAM (20_memory.md R44, R53). -/
  | dma (instr : ∃ r f l, i = .dmaToRam r f l) (mode : s.mode = .status ∨ s.mode = .read)
      (ram : ∃ base n g, base + n ≤ s.ramSize ∧ t.ram = (s.writeRam base n g).ram) (store : t.store = s.store)

theorem executeBranch_store {s t : State} (e : executeBranch s = .next t) :
    t.store = s.store ∨ ((s.mode = .erase ∨ s.mode = .write) ∧
      ∃ h base n g, t.store = (s.writeStore h base n g).store) := by
  rcases executeBranch_cases e with ⟨-, rfl⟩ | ⟨hm, e⟩ | ⟨hm, e⟩ | ⟨n, -, rfl⟩
  · exact .inl rfl
  · obtain ⟨h, -, -, rfl⟩ := eraseBranch_eq_next.mp e
    exact .inr ⟨.inl hm, h, _, _, _, State.emitSave_store _⟩
  · obtain ⟨h, -, -, -, rfl⟩ := writeBranch_eq_next.mp e
    exact .inr ⟨.inr hm, h, _, _, _, State.emitSave_store _⟩
  · exact .inl rfl

theorem dmaToRamBranch_ram {r f l : Word} {s t : State} (e : dmaToRamBranch r f l s = .next t) :
    t.ram = s.ram ∨ ((s.mode = .status ∨ s.mode = .read) ∧
      ∃ base n g, base + n ≤ s.ramSize ∧ t.ram = (s.writeRam base n g).ram) := by
  rcases dmaToRamBranch_cases e with ⟨hm, e⟩ | ⟨hm, e⟩ | ⟨-, -, rfl⟩
  · obtain ⟨inside, rfl⟩ := dmaStatusBranch_eq_next.mp e
    exact .inr ⟨.inl hm, _, _, _, inside, rfl⟩
  · obtain ⟨h, -, -, inside, rfl⟩ := dmaReadBranch_eq_next.mp e
    exact .inr ⟨.inr hm, _, _, _, inside, rfl⟩
  · exact .inl rfl

/-- Every next state of every transaction, as to the buffers. -/
theorem exec_bufferEffect {i : Instr} {s t : State} (e : exec i s = .next t) : BufferEffect i s t := by
  rcases exec_cases e with ⟨j, hj, -, eff⟩ | ⟨-, -, d, rfl⟩
  · cases j with
    | execute =>
      obtain ⟨u, hu, rfl⟩ := eff
      have hram : u.ram = s.ram := by rw [executeBranch_frame hu]
      rcases executeBranch_store hu with hstore | ⟨hmode, hwrite⟩
      · exact .untouched hstore hram
      · exact .page hj hmode hwrite hram
    | format b =>
      obtain rfl := eff
      exact .format b (eq_of_carriedOut hj rfl) rfl rfl
    | dmaToRam r f l =>
      obtain ⟨u, hu, rfl⟩ := eff
      have hstore : u.store = s.store := by rw [dmaToRamBranch_frame hu]
      rcases dmaToRamBranch_ram hu with hram | ⟨hmode, hwrite⟩
      · exact .untouched hstore hram
      · exact .dma ⟨r, f, l, eq_of_carriedOut hj rfl⟩ hmode hwrite hstore
    | dmaFromRam r f l =>
      obtain ⟨u, hu, rfl⟩ := eff
      rw [dmaFromRamBranch_frame (f := f) (l := l) hu]
      exact .untouched rfl rfl
    | regReadStatus a => rcases eff with rfl | rfl <;> exact .untouched rfl rfl
    | regWriteCommand a v m => exact eff.elim
    | _ =>
      obtain rfl := eff
      exact .untouched rfl rfl
  · exact .untouched rfl rfl

@[simp] theorem deviceAfter_ramSize (i : Option Instr) (s : State) : (deviceAfter i s).ramSize = s.ramSize := by
  cases i with
  | none => rfl
  | some j => cases j <;> rfl

@[simp] theorem deviceAfter_port (i : Option Instr) (s : State) : (deviceAfter i s).port = s.port := by
  cases i with
  | none => rfl
  | some j => cases j <;> rfl

theorem exec_ramSize {i : Instr} {s t : State} (e : exec i s = .next t) : t.ramSize = s.ramSize := by
  rw [exec_frame e]
  exact deviceAfter_ramSize (carriedOut i) s

theorem exec_port {i : Instr} {s t : State} (e : exec i s = .next t) : t.port = s.port := by
  rw [exec_frame e]
  exact deviceAfter_port (carriedOut i) s

/-- Settles O45: of the four effects on the buffers one writes RAM, and the frame holds the size and the port. -/
theorem onlyDmaToRamWritesRam : Obligations.OnlyDmaToRamWritesRam := by
  intro i s t e
  refine ⟨?_, exec_ramSize e, exec_port e⟩
  cases exec_bufferEffect e with
  | untouched _ hram => exact .inl hram
  | page _ _ _ hram => exact .inl hram
  | format _ _ _ hram => exact .inl hram
  | dma hinstr hmode _ _ =>
    obtain ⟨r, f, l, hi⟩ := hinstr
    exact .inr ⟨r, f, l, hi, hmode⟩

/-! ## The canonical form -/

theorem exec_keeps_memoryInv {i : Instr} {s t : State} (hs : s.memoryInv) (e : exec i s = .next t) :
    t.memoryInv := by
  cases exec_bufferEffect e with
  | untouched hstore hram => exact ⟨hstore ▸ hs.store_wf, hram ▸ hs.ram_wf⟩
  | page _ _ hstore hram =>
    obtain ⟨h, base, n, g, hstore⟩ := hstore
    exact ⟨hstore ▸ Memory.wf_writeLoop _ _ _ hs.store_wf, hram ▸ hs.ram_wf⟩
  | format b _ hstore hram => exact ⟨hstore ▸ Memory.wf_clearRange _ _ hs.store_wf, hram ▸ hs.ram_wf⟩
  | dma _ _ hram hstore =>
    obtain ⟨base, n, g, -, hram⟩ := hram
    exact ⟨hstore ▸ hs.store_wf, hram ▸ Memory.wf_writeLoop _ _ _ hs.ram_wf⟩

/-- Settles O52: taking a packet touches neither memory, and every transaction keeps the canonical form of both. -/
theorem canonicalMemoriesKept : Obligations.CanonicalMemoriesKept := by
  intro s t hs e
  rcases step_cases e with ⟨-, rfl⟩ | ⟨p, rest, i, -, -, he⟩
  · exact hs
  · have hport : (s.setPort rest).memoryInv := ⟨hs.store_wf, hs.ram_wf⟩
    exact exec_keeps_memoryInv hport he

/-! ## RAM and its size -/

/-- The adapter maps a block inside RAM to cells inside RAM, the size being whole 4-byte groups. -/
theorem State.ramInv.cells_inside_writeRam {s : State} (hs : s.ramInv) {base n : Nat} (inside : base + n ≤ s.ramSize)
    (g : Nat → Byte) : ∀ c ∈ (s.writeRam base n g).ram, c.1 < s.ramSize := by
  have haddr : ∀ j < n, phys (base + j) < s.ramSize := fun j hj => (phys_lt hs.size_words).mpr (by omega)
  rw [State.writeRam_ram]
  exact Memory.inside_writeLoop _ _ _ haddr hs.cells_inside

theorem exec_keeps_ramInv {i : Instr} {s t : State} (hs : s.ramInv) (e : exec i s = .next t) : t.ramInv where
  size_words := exec_ramSize e ▸ hs.size_words
  size_bounded := exec_ramSize e ▸ hs.size_bounded
  cells_inside := by
    rw [exec_ramSize e]
    cases exec_bufferEffect e with
    | untouched _ hram => exact hram ▸ hs.cells_inside
    | page _ _ _ hram => exact hram ▸ hs.cells_inside
    | format _ _ _ hram => exact hram ▸ hs.cells_inside
    | dma _ _ hram _ =>
      obtain ⟨base, n, g, inside, hram⟩ := hram
      exact hram ▸ hs.cells_inside_writeRam inside g

theorem step_keeps_ramInv {s t : State} (hs : s.ramInv) (e : step s = .next t) :
    t.ramInv ∧ t.ramSize = s.ramSize := by
  rcases step_cases e with ⟨-, rfl⟩ | ⟨p, rest, i, -, -, he⟩
  · exact ⟨hs, rfl⟩
  · have hport : (s.setPort rest).ramInv := ⟨hs.size_words, hs.size_bounded, hs.cells_inside⟩
    exact ⟨exec_keeps_ramInv hport he, (exec_ramSize he).trans (s.setPort_ramSize rest)⟩

/-- Settles O53, by induction on the number of steps. -/
theorem ramStaysInsideItsSize : Obligations.RamStaysInsideItsSize := by
  intro k
  induction k with
  | zero =>
    intro s t hs e
    obtain rfl := Host.Outcome.next.inj e
    exact ⟨hs, rfl⟩
  | succ k ih =>
    intro s t hs e
    obtain ⟨u, hstep, hrest⟩ := andThen_eq_next.mp e
    obtain ⟨hu, hsize⟩ := step_keeps_ramInv hs hstep
    obtain ⟨ht, hsize'⟩ := ih u t hu hrest
    exact ⟨ht, hsize'.trans hsize⟩

/-! ## The bytes a program takes -/

theorem exec_dmaFromRam_of_write {s : State} (hm : s.mode = .write) (r f l : Word) :
    exec (.dmaFromRam r f l) s = .next { s with writePointer := r, returned := some Config.dmaCost } := by
  have hbranch : dmaFromRamBranch r s = .next (s.setWritePointer r) := by simp only [dmaFromRamBranch, hm]
  exact congrArg (andThen · (reply Config.dmaCost)) hbranch

/-- An EXECUTE in Write mode copies the 128 logical bytes at the write pointer, as RAM holds them then, to the page
(40_commands.md R91). -/
theorem exec_execute_write_storeLogical {s t : State} {h i : Nat} (e : exec .execute s = .next t) (hm : s.mode = .write)
    (hs : s.storage = .bound h) (hi : i < 128) :
    t.storeLogical h (s.eraseOffset.toNat + i) = s.ramLogical (s.writePointer.toNat + i) := by
  obtain ⟨u, hu, rfl⟩ := execExecute_eq_next.mp e
  simp only [executeBranch, hm] at hu
  obtain ⟨h', hs', -, -, rfl⟩ := writeBranch_eq_next.mp hu
  obtain rfl : h = h' := Binding.bound.inj (hs.symm.trans hs')
  exact s.writeStore_read h _ Config.pageSize (fun j => s.ramLogical (s.writePointer.toNat + j)) i hi

/-- Settles O59: the DMA_FROM_RAM latches the address alone, and the EXECUTE reads RAM. -/
theorem programUsesRamAtExecute : Obligations.ProgramUsesRamAtExecute := by
  intro s t u h r f l m hm hs latch e i hi
  obtain rfl := Host.Outcome.next.inj ((exec_dmaFromRam_of_write hm r f l).symm.trans latch)
  exact exec_execute_write_storeLogical e hm hs hi

/-! ## The adapter -/

/-- Settles O40: a whole number of groups passes through the adapter, and within the group it is a finite check. -/
theorem adapterReversesGroups : Obligations.AdapterReversesGroups := by
  intro k j hj
  have hgroup : ∀ j < 4, phys j = 3 - j := by decide
  rw [phys_add (by omega : 4 * k % 4 = 0), hgroup j hj]

end Sys2Proof.Machine

end

/-! # The encoding (30_encoding.md)

Decoder and encoder are inverse to each other on well-formed instructions and canonical codes. The mask of a command
write acts on the opcode, and the sequence ERASE_PAGE of R76 erases what a read of the page then gives. -/

section

namespace Sys2Proof

/-- Settles O4, from the rule proved for the delivery of codes. -/
theorem decodeInvertsEncode : Obligations.DecodeInvertsEncode :=
  fun _ hwf => decode_encode hwf

/-! ## The command word (R61 to R66) -/

/-- A word whose bits below the opcode are zero is its opcode and page 0. -/
theorem commandWord_zero_page {w : Word} (h : w.extractLsb' 0 24 = 0#24) : commandWord (opcodeOf w) 0 = w := by
  have hlow := congrArg BitVec.toNat h
  rw [BitVec.extractLsb'_toNat, Nat.shiftRight_zero, BitVec.toNat_ofNat] at hlow
  have hmiddle : w.extractLsb' 16 8 = 0#8 := by
    rw [← BitVec.toNat_inj, BitVec.extractLsb'_toNat, Nat.shiftRight_eq_div_pow, BitVec.toNat_ofNat]
    omega
  have hpage : pageOf w = 0 := by
    rw [← BitVec.toNat_inj, pageOf_toNat, BitVec.ofNat_eq_ofNat, BitVec.toNat_ofNat, Nat.zero_mod]
    omega
  calc commandWord (opcodeOf w) 0
      = commandWord (opcodeOf w) (pageOf w) := by rw [hpage]
    _ = w := commandWord_eq w hmiddle

theorem encode_decodeCommand {w : Word} {i : Instr} (hw : (Code.command w).canonical = true)
    (h : decodeCommand w = some i) : encode i = .command w := by
  simp only [Code.canonical, h] at hw
  rcases decodeCommand_cases h with ⟨hop, rfl⟩ | ⟨hop, rfl⟩ | ⟨hop, rfl⟩ | ⟨hop, rfl⟩ | ⟨hop, rfl⟩ | ⟨hop, rfl⟩ |
    ⟨hop, rfl⟩
  case inl | inr.inr.inl => rw [encode, ← hop, commandWord_eq w (eq_of_beq hw)]
  all_goals rw [encode, ← hop, commandWord_zero_page (eq_of_beq hw)]

theorem decodeCommand_of_eraseSetup {w : Word} (h : opcodeOf w = opcEraseSetup) :
    decodeCommand w = some (.eraseSetup (pageOf w)) := by
  rw [decodeCommand, h]; rfl

theorem decodeCommand_of_eraseMode {w : Word} (h : opcodeOf w = opcEraseMode) :
    decodeCommand w = some .eraseMode := by
  rw [decodeCommand, h]; rfl

theorem decodeCommand_of_eraseOffset {w : Word} (h : opcodeOf w = opcEraseOffset) :
    decodeCommand w = some (.eraseOffset (pageOf w)) := by
  rw [decodeCommand, h]; rfl

theorem decodeCommand_of_writeMode {w : Word} (h : opcodeOf w = opcWriteMode) :
    decodeCommand w = some .writeMode := by
  rw [decodeCommand, h]; rfl

theorem decodeCommand_of_execute {w : Word} (h : opcodeOf w = opcExecute) : decodeCommand w = some .execute := by
  rw [decodeCommand, h]; rfl

theorem decodeCommand_of_statusMode {w : Word} (h : opcodeOf w = opcStatusMode) :
    decodeCommand w = some .statusMode := by
  rw [decodeCommand, h]; rfl

theorem decodeCommand_of_readMode {w : Word} (h : opcodeOf w = opcReadMode) :
    decodeCommand w = some .readMode := by
  rw [decodeCommand, h]; rfl

/-- The unrecognized space by the byte values of D3. -/
theorem decodeCommand_of_notMem {w : Word}
    (h : opcodeOf w ∉ [0x4B#8, 0x78#8, 0xA5#8, 0xB4#8, 0xD2#8, 0xE1#8, 0xF0#8]) : decodeCommand w = none := by
  have hrows : opcodeOf w ∉ [opcEraseSetup, opcEraseMode, opcEraseOffset, opcWriteMode, opcExecute, opcStatusMode,
    opcReadMode] := h
  exact decodeCommand_none.mpr (by simpa using hrows)

/-- Settles O1: one rule for each row of R62, and the unrecognized space of R66. -/
theorem opcodeByteSelectsCommand : Obligations.OpcodeByteSelectsCommand :=
  fun _ => ⟨decodeCommand_of_eraseSetup, decodeCommand_of_eraseMode, decodeCommand_of_eraseOffset,
    decodeCommand_of_writeMode, decodeCommand_of_execute, decodeCommand_of_statusMode, decodeCommand_of_readMode,
    decodeCommand_of_notMem⟩

/-! ## The packet (R73) -/

/-- Everything the packet decoder can answer: a row of R73 whose tag the packet has. -/
theorem decodePacket_cases {p : Packet} {i : Instr} (h : decodePacket p = some i) :
    (p.tag = 0#4 ∧ i = .regReadStatus p.lane0) ∨
    (p.tag = 1#4 ∧ i = .regWriteStatus p.lane0 p.lane1 p.lane2) ∨
    (p.tag = 2#4 ∧ i = .regReadCommand p.lane0) ∨
    (p.tag = 3#4 ∧ i = .regWriteCommand p.lane0 p.lane1 p.lane2) ∨
    (p.tag = 4#4 ∧ i = .dmaToRam p.lane0 p.lane1 p.lane2) ∨
    (p.tag = 5#4 ∧ i = .dmaFromRam p.lane0 p.lane1 p.lane2) ∨
    (p.tag = 6#4 ∧ i = .initializeStorage p.lane0.toNat) ∨
    (p.tag = 7#4 ∧ i = .powerOn) ∨
    (p.tag = 8#4 ∧ i = .format p.lane0.toNat) := by
  unfold decodePacket at h
  split at h
  case h_10 => exact absurd h (by simp)
  all_goals
    next htag =>
      obtain rfl := Option.some.inj h
      simp [← BitVec.toNat_inj, htag]

theorem decodePacket_of_nine_le {p : Packet} (h : 9 ≤ p.tag.toNat) : decodePacket p = none := by
  unfold decodePacket
  split
  case h_10 => rfl
  all_goals omega

/-- In a well-formed packet the lanes its transaction does not use are zero. -/
theorem Packet.unused_lanes_of_wf {p : Packet} {n : Nat} (hp : p.wf = true) (hn : lanesOf p.tag = some n) :
    (n ≤ 0 → p.lane0 = 0) ∧ (n ≤ 1 → p.lane1 = 0) ∧ (n ≤ 2 → p.lane2 = 0) := by
  simp only [Packet.wf, hn, Bool.and_eq_true, Bool.or_eq_true, decide_eq_true_eq, beq_iff_eq] at hp
  obtain ⟨⟨h0, h1⟩, h2⟩ := hp
  exact ⟨fun h => h0.resolve_left (by omega), fun h => h1.resolve_left (by omega),
    fun h => h2.resolve_left (by omega)⟩

/-- The encoder gives back the packet with the lanes its transaction does not use, which are zero. -/
theorem encode_decodePacket {p : Packet} {i : Instr} (hp : p.wf = true) (h : decodePacket p = some i) :
    encode i = .packet p := by
  obtain ⟨tag, a, b, c⟩ := p
  rcases decodePacket_cases h with ⟨htag, rfl⟩ | ⟨htag, rfl⟩ | ⟨htag, rfl⟩ | ⟨htag, rfl⟩ | ⟨htag, rfl⟩ |
    ⟨htag, rfl⟩ | ⟨htag, rfl⟩ | ⟨htag, rfl⟩ | ⟨htag, rfl⟩
  all_goals
    obtain rfl : tag = _ := htag
    obtain ⟨h0, h1, h2⟩ := Packet.unused_lanes_of_wf hp rfl
    simp_all [encode, packetOf]

/-! ## Both together -/

/-- A lane holds no number too large for a lane. -/
theorem handleFits_lane (lane : Word) : handleFits lane.toNat = true :=
  decide_eq_true lane.isLt

theorem wf_of_isCommand {i : Instr} (hi : Machine.isCommand i = true) : i.wf = true := by
  cases i with
  | initializeStorage | format => exact absurd hi (by simp [Machine.isCommand])
  | _ => rfl

theorem wf_of_decodePacket {p : Packet} {i : Instr} (h : decodePacket p = some i) : i.wf = true := by
  rcases decodePacket_cases h with ⟨-, rfl⟩ | ⟨-, rfl⟩ | ⟨-, rfl⟩ | ⟨-, rfl⟩ | ⟨-, rfl⟩ | ⟨-, rfl⟩ | ⟨-, rfl⟩ |
    ⟨-, rfl⟩ | ⟨-, rfl⟩
  all_goals simp [Instr.wf, handleFits_lane]

/-- Settles O5, for the two kinds of code. -/
theorem encodeInvertsDecode : Obligations.EncodeInvertsDecode := by
  intro c i hc h
  cases c with
  | command w =>
    have hw : decodeCommand w = some i := decode_command_eq_instr.mp h
    exact ⟨wf_of_isCommand (Machine.decodeCommand_isCommand hw), encode_decodeCommand hc hw⟩
  | packet p =>
    have hp : decodePacket p = some i := decode_packet_eq_instr.mp h
    exact ⟨wf_of_decodePacket hp, encode_decodePacket hc hp⟩

/-- Settles O2, by evaluating the decoder on the eight words. -/
theorem specWordsDecode : Obligations.SpecWordsDecode := by
  unfold Obligations.SpecWordsDecode
  decide

namespace Machine

/-- The step refuses a tag that is no transaction (60_exceptions.md R123). -/
theorem step_of_decodePacket_none {s : State} {p : Packet} {rest : List Packet} (hport : s.port = p :: rest)
    (hp : decodePacket p = none) : step s = .fault (.refusedTag p.tag) := by
  simp only [step, State.take, hport, hp]
  rfl

/-- Settles O3: each row of R73 is an arm of the decoder, and the step refuses what it does not decode. -/
theorem tagSelectsTransaction : Obligations.TagSelectsTransaction :=
  fun _ _ _ => ⟨rfl, rfl, rfl, rfl, rfl, rfl, rfl, rfl, rfl,
    fun t _ _ htag => step_of_decodePacket_none (p := ⟨t, _, _, _⟩) rfl (decodePacket_of_nine_le htag)⟩

/-! ## The mask (R67) -/

theorem opcodeOf_maskedCommand (v m : Word) : opcodeOf (maskedCommand v m) = opcodeOf v &&& opcodeOf m :=
  BitVec.extractLsb'_and

/-- Settles O26: the opcode byte 0 is in the unrecognized space. -/
theorem maskClearsOpcodeBits : Obligations.MaskClearsOpcodeBits := by
  intro v m
  refine ⟨opcodeOf_maskedCommand v m, fun hm => decodeCommand_none.mpr ?_⟩
  have hopcode : opcodeOf (maskedCommand v m) = 0#8 := by
    rw [opcodeOf_maskedCommand, show opcodeOf m = 0#8 from hm, BitVec.and_zero]
  rw [hopcode]
  decide

/-! ## Sequences (R76) -/

theorem execAll_cons {i : Instr} {s u : State} (rest : List Instr) (h : exec i s = .next u) :
    execAll (i :: rest) s = execAll rest u := by
  rw [execAll, h, andThen_next]

theorem execAll_append {s u : State} {first : List Instr} (second : List Instr) (h : execAll first s = .next u) :
    execAll (first ++ second) s = execAll second u := by
  induction first generalizing s with
  | nil =>
    obtain rfl := Host.Outcome.next.inj h
    rfl
  | cons i rest ih =>
    obtain ⟨v, hi, hrest⟩ := andThen_eq_next.mp h
    exact (execAll_cons _ hi).trans (ih hrest)

/-- A page begins at the flash address `64 * page` (20_memory.md R55). -/
theorem dmaSource_page {page : BitVec 16} {f : Word} (hf : f.toNat % 0x10000 = 64 * page.toNat) :
    dmaSource f = page.toNat * 128 := by
  rw [dmaSource_toNat, hf]
  omega

theorem State.storeLogical_congr {s t : State} (hstore : t.store = s.store) (h l : Nat) :
    t.storeLogical h l = s.storeLogical h l := by
  simp only [State.storeLogical, State.storeByte, hstore]

theorem State.ramLogical_congr {s t : State} (hram : t.ram = s.ram) (l : Nat) :
    t.ramLogical l = s.ramLogical l := by
  simp only [State.ramLogical, State.ramByte, hram]

/-- EXECUTE in Erase mode (40_commands.md R90), where it does not fault, as a record update. -/
theorem exec_execute_erase {s : State} {h base : Nat} (hm : s.mode = .erase) (hs : s.storage = .bound h)
    (hbase : s.eraseOffset.toNat = base) (hinside : base + 128 ≤ 0x20000) :
    exec .execute s = .next { s with
      mode := .idle, store := (s.writeStore h base 128 fun _ => fillByte).store, events := s.events ++ [.save],
      returned := none } := by
  subst hbase
  refine (execExecute_erase hm hs hinside).trans ?_
  simp only [State.writeStore_eq, State.emitSave_eq, State.setMode, State.setReturned, Config.pageSize]

/-- DMA_TO_RAM in Read mode (42_dma.md R108), where it does not fault, as a record update. -/
theorem exec_dmaToRam_read {s : State} {h base n : Nat} {r f l : Word} (hm : s.mode = .read)
    (hs : s.storage = .bound h) (hbase : dmaSource f = base) (hn : dmaCount l = n) (hinside : base + n ≤ 0x20000)
    (hr : r.toNat + n ≤ s.ramSize) :
    exec (.dmaToRam r f l) s = .next { s with
      ram := (s.writeRam r.toNat n fun i => s.storeLogical h (base + i)).ram, returned := some Config.dmaCost } := by
  subst hbase hn
  exact execDmaToRam_read r f l hm hs hinside hr

/-- The state after ERASE_PAGE, handle `h` being bound. -/
def State.pageErased (s : State) (h : Nat) (page : BitVec 16) : State :=
  { s with
    eraseOffset := pageOffset page, mode := .idle, status := statusEraseMode,
    store := (s.writeStore h (page.toNat * 128) 128 fun _ => fillByte).store, events := s.events ++ [.save],
    returned := none }

theorem State.pageErased_storeLogical (s : State) (h : Nat) (page : BitVec 16) (l : Nat) :
    (s.pageErased h page).storeLogical h l =
      if page.toNat * 128 ≤ l ∧ l < page.toNat * 128 + 128 then fillByte else s.storeLogical h l :=
  calc (s.pageErased h page).storeLogical h l
      = (s.writeStore h (page.toNat * 128) 128 fun _ => fillByte).storeLogical h l :=
        State.storeLogical_congr (by rw [State.pageErased]) h l
    _ = _ := s.writeStore_logical h (page.toNat * 128) 128 (fun _ => fillByte) l

theorem execAll_erasePage {s : State} {h : Nat} {page : BitVec 16} (hs : s.storage = .bound h)
    (hpage : page.toNat < 1024) :
    execAll [.eraseSetup page, .eraseMode, .execute] s = .next (s.pageErased h page) := by
  have herase := exec_execute_erase
    (s := { s with eraseOffset := pageOffset page, mode := .erase, status := statusEraseMode, returned := none })
    rfl hs (pageOffset_toNat page) (by omega)
  exact (execAll_cons _ rfl).trans ((execAll_cons _ rfl).trans (execAll_cons [] herase))

/-- The state after a read of a page to RAM base `r`, handle `h` being bound. -/
def State.pageRead (s : State) (h : Nat) (page : BitVec 16) (r : Word) : State :=
  { s with
    mode := .read, status := statusReadMode,
    ram := (s.writeRam r.toNat 128 fun i => s.storeLogical h (page.toNat * 128 + i)).ram,
    returned := some Config.dmaCost }

theorem State.pageRead_storeLogical (s : State) (h : Nat) (page : BitVec 16) (r : Word) (l : Nat) :
    (s.pageRead h page r).storeLogical h l = s.storeLogical h l :=
  State.storeLogical_congr rfl h l

theorem State.pageRead_ramLogical (s : State) (h : Nat) (page : BitVec 16) (r : Word) (l : Nat) :
    (s.pageRead h page r).ramLogical l =
      if r.toNat ≤ l ∧ l < r.toNat + 128 then s.storeLogical h (page.toNat * 128 + (l - r.toNat))
      else s.ramLogical l :=
  calc (s.pageRead h page r).ramLogical l
      = (s.writeRam r.toNat 128 fun i => s.storeLogical h (page.toNat * 128 + i)).ramLogical l :=
        State.ramLogical_congr rfl l
    _ = _ := s.writeRam_logical r.toNat 128 (fun i => s.storeLogical h (page.toNat * 128 + i)) l

theorem execAll_readPage {s : State} {h : Nat} {page : BitVec 16} {r f : Word} (hs : s.storage = .bound h)
    (hpage : page.toNat < 1024) (hr : r.toNat + 128 ≤ s.ramSize) (hf : f.toNat % 0x10000 = 64 * page.toNat) :
    execAll [.readMode, .dmaToRam r f 0x7F#32] s = .next (s.pageRead h page r) := by
  have hcount : dmaCount 0x7F#32 = 128 := by decide
  have hread := exec_dmaToRam_read (s := { s with mode := .read, status := statusReadMode, returned := none })
    rfl hs (dmaSource_page hf) hcount (by omega) hr
  exact (execAll_cons _ rfl).trans (execAll_cons [] hread)

/-- Settles O57: what the erase writes to the page is what the read copies to RAM. -/
theorem eraseThenReadGivesErasedPage : Obligations.EraseThenReadGivesErasedPage := by
  intro s h page r f hs hpage hr hf
  have herase := execAll_erasePage hs hpage
  have hread := execAll_readPage (s := s.pageErased h page) hs hpage hr hf
  refine ⟨_, (execAll_append _ herase).trans hread, fun i hi => ?_, fun l _ hl => ?_⟩
  · rw [State.pageRead_ramLogical, if_pos (by omega), State.pageErased_storeLogical, if_pos (by omega)]
    rfl
  · rw [State.pageRead_storeLogical, State.pageErased_storeLogical, if_neg hl]

end Machine

end Sys2Proof

end

/-! # The commands (40_commands.md)

What the branch of EXECUTE answers is said once for each case; `exec_execute_of_next` and `exec_execute_of_fault` carry
an answer over to the command. The bytes of a page are read through the laws of the block write. -/

section

namespace Sys2Proof.Machine

/-! ## Setup and mode entry (R83 to R86, R94, R95) -/

/-- Settles O9: the decoder's row, and the one field the meaning writes. -/
theorem eraseSetupSetsOffset : Obligations.EraseSetupSetsOffset :=
  ⟨fun _ => decodeCommand_of_eraseSetup, fun _ _ => rfl⟩

/-- Settles O10: the decoder's row, and the two fields the meaning writes. -/
theorem eraseModeEntersErase : Obligations.EraseModeEntersErase :=
  ⟨fun _ => decodeCommand_of_eraseMode, fun _ => rfl⟩

/-- Settles O11: the decoder's row, and the three fields the meaning writes. -/
theorem eraseOffsetEntersErase : Obligations.EraseOffsetEntersErase :=
  ⟨fun _ => decodeCommand_of_eraseOffset, fun _ _ => rfl⟩

/-- Settles O12: the decoder's row, and the one field the meaning writes. -/
theorem writeModeKeepsStatus : Obligations.WriteModeKeepsStatus :=
  ⟨fun _ => decodeCommand_of_writeMode, fun _ => rfl⟩

/-- Settles O13: the decoder's row, and the two fields the meaning writes. -/
theorem statusModeEntersStatus : Obligations.StatusModeEntersStatus :=
  ⟨fun _ => decodeCommand_of_statusMode, fun _ => rfl⟩

/-- Settles O14: the decoder's row, and the two fields the meaning writes. -/
theorem readModeEntersRead : Obligations.ReadModeEntersRead :=
  ⟨fun _ => decodeCommand_of_readMode, fun _ => rfl⟩

/-! ## The end of EXECUTE (R87) -/

theorem exec_execute_of_next {s u : State} (h : executeBranch s = .next u) :
    exec .execute s = .next { u with mode := .idle, returned := none } :=
  execExecute_eq_next.mpr ⟨u, h, rfl⟩

theorem exec_execute_of_fault {s : State} {f : Fault} (h : executeBranch s = .fault f) :
    exec .execute s = .fault f := by
  rw [exec, execExecute, h, andThen]

/-- Settles O19: the branch touches the backing memory and the events alone, and its end sets the mode. -/
theorem executeAlwaysEndsIdle : Obligations.ExecuteAlwaysEndsIdle := by
  intro s t e
  obtain ⟨u, hu, rfl⟩ := execExecute_eq_next.mp e
  rw [executeBranch_frame hu]
  rfl

/-! ## The branch that the mode selects (R88 to R93) -/

theorem executeBranch_of_erase {s : State} (hm : s.mode = .erase) : executeBranch s = eraseBranch s := by
  simp only [executeBranch, hm]

theorem executeBranch_of_write {s : State} (hm : s.mode = .write) : executeBranch s = writeBranch s := by
  simp only [executeBranch, hm]

theorem executeBranch_of_unknown {s : State} {n : Nat} (hm : s.mode = .unknown n) :
    executeBranch s = .next (s.emitDiag (.execUnknownMode (.unknown n))) := by
  simp only [executeBranch, hm]

theorem executeBranch_of_no_effect {s : State} (hm : s.mode = .idle ∨ s.mode = .read ∨ s.mode = .status) :
    executeBranch s = .next s := by
  rcases hm with hm | hm | hm
  all_goals simp only [executeBranch, hm]

/-- Settles O18: the branch reports, and its end sets the mode. -/
theorem executeUnknownModeReports : Obligations.ExecuteUnknownModeReports :=
  fun _ _ hm => exec_execute_of_next (executeBranch_of_unknown hm)

/-- A DMA_TO_RAM in a mode that is neither Status nor Read reports it and moves nothing (42_dma.md R109). -/
theorem exec_dmaToRam_of_mismatch {s : State} (hstatus : s.mode ≠ .status) (hread : s.mode ≠ .read) (r f l : Word) :
    exec (.dmaToRam r f l) s = .next { s with
      events := s.events ++ [.diag (.dmaToRamMode s.mode)], returned := some Config.dmaCost } := by
  have hbranch : dmaToRamBranch r f l s = .next (s.emitDiag (.dmaToRamMode s.mode)) := by
    cases hm : s.mode with
    | status => exact absurd hm hstatus
    | read => exact absurd hm hread
    | idle | erase | write | unknown n => simp only [dmaToRamBranch, hm]
  exact andThen_eq_next.mpr ⟨_, hbranch, rfl⟩

/-- Settles O15: the mode that EXECUTE leaves is Idle, in which the DMA reports a mismatch. -/
theorem executeWithoutEffect : Obligations.ExecuteWithoutEffect := by
  intro s hm
  have hexec : exec .execute s = .next { s with mode := .idle, returned := none } :=
    exec_execute_of_next (executeBranch_of_no_effect hm)
  refine ⟨hexec, fun r f l => (execAll_cons _ hexec).trans ?_⟩
  exact execAll_cons [] (exec_dmaToRam_of_mismatch (by simp) (by simp) r f l)

/-! ## The faults of EXECUTE, in the order of 60_exceptions.md R124 -/

theorem eraseBranch_of_unbound {s : State} (hs : s.storage = .unbound) :
    eraseBranch s = .fault (.unbound .execute) :=
  withStorage_unbound _ hs

theorem writeBranch_of_unbound {s : State} (hs : s.storage = .unbound) :
    writeBranch s = .fault (.unbound .execute) :=
  withStorage_unbound _ hs

theorem eraseBranch_of_page_outside {s : State} {h : Nat} (hs : s.storage = .bound h)
    (hpage : 0x20000 < s.eraseOffset.toNat + 128) :
    eraseBranch s = .fault (.outOfRange .store s.eraseOffset.toNat .execute) :=
  (withStorage_bound _ hs).trans (checkRange_out _ hpage)

theorem writeBranch_of_page_outside {s : State} {h : Nat} (hs : s.storage = .bound h)
    (hpage : 0x20000 < s.eraseOffset.toNat + 128) :
    writeBranch s = .fault (.outOfRange .store s.eraseOffset.toNat .execute) :=
  (withStorage_bound _ hs).trans (checkRange_out _ hpage)

theorem writeBranch_of_source_outside {s : State} {h : Nat} (hs : s.storage = .bound h) (hpage : s.pageInStore)
    (hsource : s.ramSize < s.writePointer.toNat + 128) :
    writeBranch s = .fault (.outOfRange .ram s.writePointer.toNat .execute) :=
  (withStorage_bound _ hs).trans ((checkRange_in _ hpage).trans (checkRange_out _ hsource))

/-! ## The bytes of a page -/

/-- From an aligned base, a logical byte is the physical byte at the adapted distance. -/
theorem State.storeLogical_aligned (s : State) (h : Nat) {base : Nat} (hbase : base % 4 = 0) (j : Nat) :
    s.storeLogical h (base + phys j) = s.storeByte h (base + j) := by
  rw [State.storeLogical, phys_add hbase, phys_phys]

theorem State.ramLogical_aligned (s : State) {base : Nat} (hbase : base % 4 = 0) (j : Nat) :
    s.ramLogical (base + phys j) = s.ramByte (base + j) := by
  rw [State.ramLogical, phys_add hbase, phys_phys]

/-- The physical bytes of an aligned block write of whole 4-byte groups. -/
theorem State.writeStore_storeByte (s : State) (h : Nat) {base n j : Nat} (f : Nat → Byte) (hbase : base % 4 = 0)
    (hn : n % 4 = 0) (hj : j < n) : (s.writeStore h base n f).storeByte h (base + j) = f (phys j) :=
  calc (s.writeStore h base n f).storeByte h (base + j)
      = (s.writeStore h base n f).storeLogical h (base + phys j) :=
        (State.storeLogical_aligned _ h hbase j).symm
    _ = f (phys j) := s.writeStore_read h base n f (phys j) ((phys_lt hn).mpr hj)

/-- EXECUTE in Write mode (R91), where it does not fault, as a record update. -/
theorem exec_execute_write {s : State} {h : Nat} (hm : s.mode = .write) (hs : s.storage = .bound h)
    (hpage : s.pageInStore) (hsource : s.sourceInRam) :
    exec .execute s = .next { s with
      mode := .idle,
      store := (s.writeStore h s.eraseOffset.toNat 128 fun i => s.ramLogical (s.writePointer.toNat + i)).store,
      events := s.events ++ [.save], returned := none } := by
  refine (execExecute_write hm hs hpage hsource).trans ?_
  simp only [State.writeStore_eq, State.emitSave_eq, State.setMode, State.setReturned, Config.pageSize]

/-- Settles O16: the two checks in their order, then the laws of the block write of 0xFF. -/
theorem executeErasesOnePage : Obligations.ExecuteErasesOnePage := by
  intro s hm
  have hbranch := executeBranch_of_erase hm
  refine ⟨fun hs => exec_execute_of_fault (hbranch.trans (eraseBranch_of_unbound hs)), fun h hs =>
    ⟨?outside, ?inside⟩⟩
  case outside =>
    exact fun hout => exec_execute_of_fault (hbranch.trans (eraseBranch_of_page_outside hs hout))
  intro hpage
  refine ⟨_, exec_execute_erase hm hs rfl hpage, fun l hlo hhi => ?logical, fun a ha => ?frame,
    fun haligned p hp => ?physical⟩
  case logical =>
    have hbyte : (s.writeStore h s.eraseOffset.toNat 128 fun _ => fillByte).storeLogical h l = fillByte := by
      rw [State.writeStore_logical, if_pos ⟨hlo, hhi⟩]
    exact hbyte
  case frame =>
    exact s.writeStore_read_other h _ 128 (fun _ => fillByte) a
      fun i hi => (ha _ (by omega) (by omega)).symm
  case physical =>
    obtain ⟨j, rfl⟩ := Nat.exists_eq_add_of_le hp.1
    have hbyte : (s.writeStore h s.eraseOffset.toNat 128 fun _ => fillByte).storeByte h (s.eraseOffset.toNat + j) =
        fillByte :=
      s.writeStore_storeByte h (fun _ => fillByte) (by omega) rfl (by omega)
    exact hbyte

/-- Settles O17: the three checks in their order, then the laws of the block write of the bytes of RAM. -/
theorem executeProgramsOnePage : Obligations.ExecuteProgramsOnePage := by
  intro s hm
  have hbranch := executeBranch_of_write hm
  refine ⟨fun hs => exec_execute_of_fault (hbranch.trans (writeBranch_of_unbound hs)), fun h hs =>
    ⟨?pageOutside, ?sourceOutside, ?inside⟩⟩
  case pageOutside =>
    exact fun hout => exec_execute_of_fault (hbranch.trans (writeBranch_of_page_outside hs hout))
  case sourceOutside =>
    exact fun hpage hout => exec_execute_of_fault (hbranch.trans (writeBranch_of_source_outside hs hpage hout))
  intro hpage hsource
  refine ⟨_, exec_execute_write hm hs hpage hsource, fun i hi => ?logical, fun a ha => ?frame,
    fun hstore hram j hj => ?physical⟩
  case logical =>
    exact s.writeStore_read h _ 128 (fun i => s.ramLogical (s.writePointer.toNat + i)) i hi
  case frame =>
    exact s.writeStore_read_other h _ 128 (fun i => s.ramLogical (s.writePointer.toNat + i)) a
      fun i hi => (ha i hi).symm
  case physical =>
    exact (s.writeStore_storeByte h (fun i => s.ramLogical (s.writePointer.toNat + i)) hstore rfl hj).trans
      (s.ramLogical_aligned hram j)

/-! ## The unrecognized command (R96) -/

/-- A register address is valid when its low half is zero (41_register_access.md R98). -/
theorem addressValid_iff_low_zero {a : Word} : addressValid a = true ↔ a.extractLsb' 0 16 = 0#16 := by
  rw [addressValid_iff, ← BitVec.toNat_inj, BitVec.extractLsb'_toNat, Nat.shiftRight_zero]
  rfl

theorem exec_regWriteCommand_of_unrecognized {a v m : Word} (ha : addressValid a = true)
    (hdecode : decodeCommand (maskedCommand v m) = none) (s : State) :
    exec (.regWriteCommand a v m) s = .next { s with
      events := s.events ++ [.diag (.unknownCommand (maskedCommand v m))], returned := none } := by
  rw [exec_regWriteCommand_of_valid ha, executeCommand_eq, hdecode]
  rfl

/-- Settles O25: a word outside the seven opcodes is not decoded, and the write reports it. -/
theorem unrecognizedCommandReports : Obligations.UnrecognizedCommandReports :=
  fun s _ _ _ ha hopcode =>
    exec_regWriteCommand_of_unrecognized (addressValid_iff_low_zero.mpr ha) (decodeCommand_of_notMem hopcode) s

end Sys2Proof.Machine

end

/-! # The register transactions (41_register_access.md)

A command write reaches its meaning through the decoder (R102), so what it does is what `exec` of the decoded command
does; that this completes is a fact about the seven commands, of which EXECUTE alone can fault. -/

section

namespace Sys2Proof.Machine

/-! ## The status register (R99, R100) -/

theorem exec_regReadStatus_of_valid {a : Word} (ha : addressValid a = true) (s : State) :
    exec (.regReadStatus a) s = .next { s with returned := some (hi32 s.status) } := by
  rw [exec, execRegReadStatus, if_pos ha]
  rfl

theorem exec_regReadStatus_of_invalid {a : Word} (ha : addressValid a ≠ true) (s : State) :
    exec (.regReadStatus a) s = .next { s with
      events := s.events ++ [.diag (.badStatusReadAddr a)], returned := some s.drawn, draws := s.draws + 1 } := by
  rw [exec, execRegReadStatus, if_neg ha]
  rfl

/-- Settles O20: R98 decides which of the two rules runs. The value at an invalid address is the state's free draw. -/
theorem statusReadReturnsHighHalf : Obligations.StatusReadReturnsHighHalf :=
  fun s _ => ⟨fun hlow => exec_regReadStatus_of_valid (addressValid_iff_low_zero.mpr hlow) s,
    fun hlow => ⟨s.drawn, exec_regReadStatus_of_invalid (mt addressValid_iff_low_zero.mp hlow) s⟩⟩

/-- Settles O21: the meaning takes no operand into account and ends the transaction at once. -/
theorem statusWriteIgnored : Obligations.StatusWriteIgnored :=
  fun _ _ _ _ => rfl

/-! ## The command register (R101, R102) -/

/-- Settles O22: the meaning takes no operand into account and answers zero. -/
theorem commandReadsZero : Obligations.CommandReadsZero :=
  fun _ _ => rfl

theorem exec_regWriteCommand_of_decodeCommand {a v m : Word} {i : Instr} (ha : addressValid a = true)
    (hdecode : decodeCommand (maskedCommand v m) = some i) (s : State) :
    exec (.regWriteCommand a v m) s = exec i s := by
  rw [exec_regWriteCommand_of_valid ha, executeCommand_eq, hdecode]

theorem exec_regWriteCommand_of_invalid {a : Word} (ha : addressValid a ≠ true) (v m : Word) (s : State) :
    exec (.regWriteCommand a v m) s = .next { s with
      events := s.events ++ [.diag (.badCommandWriteAddr a)], returned := none } := by
  rw [exec, execRegWriteCommand, if_neg ha]
  rfl

/-- Settles O23: at a valid address the decoder's answer decides, at any other nothing is decoded. -/
theorem commandWriteDispatches : Obligations.CommandWriteDispatches := by
  intro s a v m
  refine ⟨fun hlow => ?valid, fun hlow => ?invalid⟩
  case valid =>
    have ha : addressValid a = true := addressValid_iff_low_zero.mpr hlow
    exact ⟨fun i hdecode => exec_regWriteCommand_of_decodeCommand ha hdecode s,
      fun hdecode => exec_regWriteCommand_of_unrecognized ha hdecode s⟩
  case invalid => exact exec_regWriteCommand_of_invalid (mt addressValid_iff_low_zero.mp hlow) v m s

/-! ## The commands that complete -/

theorem State.isBound_iff {s : State} : s.isBound ↔ ∃ h, s.storage = .bound h := by
  rw [State.isBound]
  cases s.storage <;> simp

/-- What R90 and R91 ask of the state is enough for EXECUTE in every mode. -/
theorem exec_execute_completes {s : State} (hready : s.executeReady) : ∃ t, exec .execute s = .next t := by
  obtain ⟨herase, hwrite⟩ := hready
  cases hm : s.mode with
  | idle => exact ⟨_, exec_execute_of_next (executeBranch_of_no_effect (.inl hm))⟩
  | read => exact ⟨_, exec_execute_of_next (executeBranch_of_no_effect (.inr (.inl hm)))⟩
  | status => exact ⟨_, exec_execute_of_next (executeBranch_of_no_effect (.inr (.inr hm)))⟩
  | erase =>
    obtain ⟨hbound, hpage⟩ := herase hm
    obtain ⟨h, hs⟩ := State.isBound_iff.mp hbound
    exact ⟨_, execExecute_erase hm hs hpage⟩
  | write =>
    obtain ⟨hbound, hpage, hsource⟩ := hwrite hm
    obtain ⟨h, hs⟩ := State.isBound_iff.mp hbound
    exact ⟨_, execExecute_write hm hs hpage hsource⟩
  | unknown n => exact ⟨_, exec_execute_of_next (executeBranch_of_unknown hm)⟩

/-- Of the seven commands EXECUTE alone can fault. -/
theorem exec_command_completes {i : Instr} {s : State} (hi : isCommand i = true)
    (hready : i = .execute → s.executeReady) : ∃ t, exec i s = .next t := by
  cases i with
  | execute => exact exec_execute_completes (hready rfl)
  | eraseSetup | eraseMode | eraseOffset | writeMode | statusMode | readMode => exact ⟨_, rfl⟩
  | _ => exact absurd hi (by simp [isCommand])

/-- Settles O24: the write runs the command it delivers, and that command completes. -/
theorem commandWriteCompletes : Obligations.CommandWriteCompletes := by
  intro s a v m i hlow hdecode hready
  obtain ⟨t, ht⟩ := exec_command_completes (decodeCommand_isCommand hdecode) hready
  have hwrite : exec (.regWriteCommand a v m) s = exec i s :=
    exec_regWriteCommand_of_decodeCommand (addressValid_iff_low_zero.mpr hlow) hdecode s
  exact ⟨t, hwrite.trans ht, ht⟩

end Sys2Proof.Machine

end

/-! # The DMA transactions (42_dma.md)

What the branch of DMA_TO_RAM answers is said once for each case; `exec_dmaToRam_of_next` and `exec_dmaToRam_of_fault`
carry an answer over to the transaction. The bytes of RAM are read through the laws of the block write. -/

section

namespace Sys2Proof.Machine

/-! ## A block written to RAM -/

theorem State.writeRam_read (s : State) (base n : Nat) (f : Nat → Byte) (i : Nat) (hi : i < n) :
    (s.writeRam base n f).ramLogical (base + i) = f i := by
  rw [State.writeRam_logical, if_pos (by omega), Nat.add_sub_cancel_left]

theorem State.writeRam_read_other (s : State) (base n : Nat) (f : Nat → Byte) (a : Nat)
    (ha : ∀ i < n, phys (base + i) ≠ a) : (s.writeRam base n f).ramByte a = s.ramByte a :=
  Memory.read_writeLoop_other ramUnlisted s.ram (fun i => phys (base + i)) f n a ha

/-- The physical bytes of an aligned block write of whole 4-byte groups. -/
theorem State.writeRam_ramByte (s : State) {base n j : Nat} (f : Nat → Byte) (hbase : base % 4 = 0)
    (hn : n % 4 = 0) (hj : j < n) : (s.writeRam base n f).ramByte (base + j) = f (phys j) :=
  calc (s.writeRam base n f).ramByte (base + j)
      = (s.writeRam base n f).ramLogical (base + phys j) := (State.ramLogical_aligned _ hbase j).symm
    _ = f (phys j) := s.writeRam_read base n f (phys j) ((phys_lt hn).mpr hj)

/-- A block write of what stands there already changes no byte of RAM. -/
theorem State.writeRam_ramByte_of_held {s : State} {base n : Nat} {f : Nat → Byte}
    (held : ∀ i < n, s.ramLogical (base + i) = f i) (a : Nat) : (s.writeRam base n f).ramByte a = s.ramByte a := by
  by_cases written : ∃ i < n, phys (base + i) = a
  · obtain ⟨i, hi, rfl⟩ := written
    exact (s.writeRam_read base n f i hi).trans (held i hi).symm
  · exact s.writeRam_read_other base n f a fun i hi e => written ⟨i, hi, e⟩

/-! ## The end of a DMA transaction (R105) -/

theorem exec_dmaToRam_eq_next {r f l : Word} {s t : State} : exec (.dmaToRam r f l) s = .next t ↔
    ∃ u, dmaToRamBranch r f l s = .next u ∧ { u with returned := some Config.dmaCost } = t := by
  simp only [exec, execDmaToRam, andThen_eq_next, reply_eq_next, State.setReturned]

theorem exec_dmaToRam_of_next {r f l : Word} {s u : State} (h : dmaToRamBranch r f l s = .next u) :
    exec (.dmaToRam r f l) s = .next { u with returned := some Config.dmaCost } :=
  exec_dmaToRam_eq_next.mpr ⟨u, h, rfl⟩

theorem exec_dmaToRam_of_fault {r f l : Word} {s : State} {x : Fault} (h : dmaToRamBranch r f l s = .fault x) :
    exec (.dmaToRam r f l) s = .fault x := by
  rw [exec, execDmaToRam, h, andThen]

/-- A DMA_FROM_RAM in any mode but Write reports it and latches nothing (R112). -/
theorem exec_dmaFromRam_of_mismatch {s : State} (hm : s.mode ≠ .write) (r f l : Word) :
    exec (.dmaFromRam r f l) s = .next { s with
      events := s.events ++ [.diag (.dmaFromRamMode s.mode)], returned := some Config.dmaCost } := by
  rcases dmaFromRamBranch_cases r s with ⟨hwrite, -⟩ | ⟨-, answer⟩
  · exact absurd hwrite hm
  · exact andThen_eq_next.mpr ⟨_, answer, rfl⟩

theorem exec_dmaFromRam_returned {r f l : Word} {s t : State} (e : exec (.dmaFromRam r f l) s = .next t) :
    t.returned = some Config.dmaCost := by
  obtain ⟨u, -, ht⟩ := andThen_eq_next.mp e
  rw [← reply_eq_next.mp ht, State.setReturned_returned]

theorem exec_dmaToRam_returned {r f l : Word} {s t : State} (e : exec (.dmaToRam r f l) s = .next t) :
    t.returned = some Config.dmaCost := by
  obtain ⟨u, -, rfl⟩ := exec_dmaToRam_eq_next.mp e
  rfl

/-- Settles O32: both transactions end in the reply of the one constant. -/
theorem dmaReturnsFixedCost : Obligations.DmaReturnsFixedCost :=
  fun _ _ _ _ _ e => e.elim exec_dmaToRam_returned exec_dmaFromRam_returned

/-- Settles O30. -/
theorem dmaToRamMismatchReports : Obligations.DmaToRamMismatchReports :=
  fun _ r f l hstatus hread => exec_dmaToRam_of_mismatch hstatus hread r f l

/-- Settles O31, from one rule for each side of the mode test. -/
theorem dmaFromRamLatchesSource : Obligations.DmaFromRamLatchesSource :=
  fun _ r f l => ⟨fun hm => exec_dmaFromRam_of_write hm r f l, fun hm => exec_dmaFromRam_of_mismatch hm r f l⟩

/-! ## Status mode (R107) -/

theorem dmaToRamBranch_of_status {s : State} (hm : s.mode = .status) (r f l : Word) :
    dmaToRamBranch r f l s = dmaStatusBranch r s := by
  simp only [dmaToRamBranch, hm]

theorem exec_dmaToRam_of_status_outside {s : State} {r : Word} (hm : s.mode = .status)
    (hout : s.ramSize < r.toNat + 8) (f l : Word) :
    exec (.dmaToRam r f l) s = .fault (.outOfRange .ram r.toNat .dmaToRam) :=
  exec_dmaToRam_of_fault ((dmaToRamBranch_of_status hm r f l).trans (checkRange_out _ hout))

/-- DMA_TO_RAM in Status mode, where it does not fault, as a record update. The base of the status word is literal
(92_eei_decisions.md D12). -/
theorem exec_dmaToRam_status {s : State} {r : Word} (hm : s.mode = .status) (hin : r.toNat + 8 ≤ s.ramSize)
    (f l : Word) : exec (.dmaToRam r f l) s = .next { s with
      ram := (s.writeRam r.toNat 8 (beByte s.status)).ram, returned := some Config.dmaCost } :=
  exec_dmaToRam_of_next ((dmaToRamBranch_of_status hm r f l).trans (dmaStatusBranch_eq_next.mpr ⟨hin, rfl⟩))

/-- Settles O27: the range check, then the laws of the block write of the eight bytes. -/
theorem statusDmaWritesStatusWord : Obligations.StatusDmaWritesStatusWord := by
  intro s r f l hm
  refine ⟨fun hout => exec_dmaToRam_of_status_outside hm hout f l, fun hin =>
    ⟨_, exec_dmaToRam_status hm hin f l, fun k hk => ?logical, fun a ha => ?frame⟩⟩
  case logical => exact s.writeRam_read r.toNat 8 (beByte s.status) k hk
  case frame => exact s.writeRam_read_other r.toNat 8 (beByte s.status) a fun k hk => (ha k hk).symm

/-! ## Read mode (R108), with the faults in the order of 60_exceptions.md R124 -/

theorem dmaToRamBranch_of_read {s : State} (hm : s.mode = .read) (r f l : Word) :
    dmaToRamBranch r f l s = dmaReadBranch r f l s := by
  simp only [dmaToRamBranch, hm]

theorem dmaReadBranch_of_unbound {s : State} (hs : s.storage = .unbound) (r f l : Word) :
    dmaReadBranch r f l s = .fault (.unbound .dmaToRam) :=
  withStorage_unbound _ hs

theorem dmaReadBranch_of_source_outside {s : State} {h : Nat} {f l : Word} (hs : s.storage = .bound h)
    (hsource : 0x20000 < dmaSource f + dmaCount l) (r : Word) :
    dmaReadBranch r f l s = .fault (.outOfRange .store (dmaSource f + dmaCount l - 1) .dmaToRam) :=
  (withStorage_bound _ hs).trans (checkRange_out _ hsource)

theorem dmaReadBranch_of_target_outside {s : State} {h : Nat} {r f l : Word} (hs : s.storage = .bound h)
    (hsource : dmaSource f + dmaCount l ≤ 0x20000) (htarget : s.ramSize < r.toNat + dmaCount l) :
    dmaReadBranch r f l s = .fault (.outOfRange .ram (r.toNat + dmaCount l - 1) .dmaToRam) :=
  (withStorage_bound _ hs).trans ((checkRange_in _ hsource).trans (checkRange_out _ htarget))

/-- Settles O28: the three checks in their order, then the laws of the block write of the bytes of storage. -/
theorem readDmaCopiesStorage : Obligations.ReadDmaCopiesStorage := by
  intro s r f l hm
  have hbranch := dmaToRamBranch_of_read hm r f l
  refine ⟨fun hs => exec_dmaToRam_of_fault (hbranch.trans (dmaReadBranch_of_unbound hs r f l)), ?_⟩
  intro h src n hs hsrc hn
  rw [← dmaSource_toNat] at hsrc
  rw [← dmaCount_toNat] at hn
  subst hsrc hn
  refine ⟨?sourceOutside, ?targetOutside, fun hsource htarget =>
    ⟨_, exec_dmaToRam_read hm hs rfl rfl hsource htarget, fun i hi => ?logical, fun a ha => ?frame⟩⟩
  case sourceOutside =>
    exact fun hsource => exec_dmaToRam_of_fault (hbranch.trans (dmaReadBranch_of_source_outside hs hsource r))
  case targetOutside =>
    exact fun hsource htarget =>
      exec_dmaToRam_of_fault (hbranch.trans (dmaReadBranch_of_target_outside hs hsource htarget))
  case logical =>
    exact s.writeRam_read r.toNat (dmaCount l) (fun i => s.storeLogical h (dmaSource f + i)) i hi
  case frame =>
    exact s.writeRam_read_other r.toNat (dmaCount l) (fun i => s.storeLogical h (dmaSource f + i)) a
      fun i hi => (ha i hi).symm

/-- Settles O29: from aligned bases the adapter moves both sides by the same distance. -/
theorem alignedReadDmaIsBlockCopy : Obligations.AlignedReadDmaIsBlockCopy := by
  intro s t h r f l hm hs hram hsource hcount e j hj
  obtain ⟨u, hu, rfl⟩ := exec_dmaToRam_eq_next.mp e
  rw [dmaToRamBranch_of_read hm] at hu
  obtain ⟨h', hs', -, -, rfl⟩ := dmaReadBranch_eq_next.mp hu
  obtain rfl : h = h' := Binding.bound.inj (hs.symm.trans hs')
  calc (s.writeRam r.toNat (dmaCount l) fun i => s.storeLogical h (dmaSource f + i)).ramByte (r.toNat + j)
      = s.storeLogical h (dmaSource f + phys j) :=
        s.writeRam_ramByte (fun i => s.storeLogical h (dmaSource f + i)) hram hcount hj
    _ = s.storeByte h (dmaSource f + j) := s.storeLogical_aligned h hsource j

/-! ## A repeated DMA_TO_RAM (20_memory.md R52) -/

theorem exec_dmaToRam_frame {r f l : Word} {s t : State} (e : exec (.dmaToRam r f l) s = .next t) :
    t = { s with ram := t.ram, events := t.events, returned := t.returned } := by
  obtain ⟨u, hu, rfl⟩ := exec_dmaToRam_eq_next.mp e
  rw [dmaToRamBranch_frame hu]

/-- The second transfer finds in RAM the block it writes; in a mode mismatch there is no transfer. -/
theorem exec_dmaToRam_repeat {r f l : Word} {s t : State} (e : exec (.dmaToRam r f l) s = .next t) :
    ∃ u, exec (.dmaToRam r f l) t = .next u ∧ ∀ a, u.ramByte a = t.ramByte a := by
  obtain ⟨v, hv, rfl⟩ := exec_dmaToRam_eq_next.mp e
  rcases dmaToRamBranch_cases hv with ⟨hm, hv⟩ | ⟨hm, hv⟩ | ⟨hstatus, hread, rfl⟩
  · obtain ⟨hin, rfl⟩ := dmaStatusBranch_eq_next.mp hv
    refine ⟨_, exec_dmaToRam_status ?_ ?_ f l, State.writeRam_ramByte_of_held ?_⟩
    exacts [hm, hin, s.writeRam_read r.toNat 8 (beByte s.status)]
  · obtain ⟨h, hs, hsource, htarget, rfl⟩ := dmaReadBranch_eq_next.mp hv
    refine ⟨_, exec_dmaToRam_read (h := h) ?_ ?_ rfl rfl hsource ?_, State.writeRam_ramByte_of_held ?_⟩
    exacts [hm, hs, htarget, s.writeRam_read r.toNat (dmaCount l) fun i => s.storeLogical h (dmaSource f + i)]
  · refine ⟨_, exec_dmaToRam_of_mismatch ?_ ?_ r f l, fun _ => rfl⟩
    exacts [hstatus, hread]

/-- Settles O33. -/
theorem dmaToRamIsIdempotent : Obligations.DmaToRamIsIdempotent :=
  fun _ _ _ _ _ e => ⟨exec_dmaToRam_frame e, exec_dmaToRam_repeat e⟩

end Sys2Proof.Machine

end

/-! # The bytes of the buffers reach only the buffers (42_dma.md R111, 40_commands.md R91)

A meaning that reads bytes of a buffer only to write bytes of a buffer answers alike when the bytes are forgotten. -/

section

namespace Sys2Proof.Machine

/-- The state with the bytes of both buffers forgotten. -/
def State.forgetBytes (s : State) : State := { s with store := [], ram := [] }

@[simp] theorem State.forgetBytes_writeStore (s : State) (h base n : Nat) (f : Nat → Byte) :
    (s.writeStore h base n f).forgetBytes = s.forgetBytes := by
  rw [State.writeStore_eq, State.forgetBytes, State.forgetBytes]

@[simp] theorem State.forgetBytes_writeRam (s : State) (base n : Nat) (f : Nat → Byte) :
    (s.writeRam base n f).forgetBytes = s.forgetBytes := by
  rw [State.writeRam_eq, State.forgetBytes, State.forgetBytes]

@[simp] theorem State.forgetBytes_emitSave (s : State) : s.emitSave.forgetBytes = s.forgetBytes.emitSave := rfl

/-- States that agree but for the bytes of the buffers. -/
theorem State.eq_of_forgetBytes_eq {s t : State} (h : s.forgetBytes = t.forgetBytes) :
    s = { t with ram := s.ram, store := s.store } :=
  calc s = { s.forgetBytes with ram := s.ram, store := s.store } := rfl
    _ = { t.forgetBytes with ram := s.ram, store := s.store } := by rw [h]

/-- The answer with the bytes of both buffers forgotten in its next state; a stop stays the same stop. -/
def resultForgetBytes (r : Result) : Result := andThen r fun t => .next t.forgetBytes

@[simp] theorem resultForgetBytes_next (s : State) : resultForgetBytes (.next s) = .next s.forgetBytes := rfl

theorem resultForgetBytes_eq_next {r : Result} {t : State} :
    resultForgetBytes r = .next t ↔ ∃ u, r = .next u ∧ u.forgetBytes = t := by
  simp [resultForgetBytes, andThen_eq_next]

theorem resultForgetBytes_eq_fault {r : Result} {f : Fault} : resultForgetBytes r = .fault f ↔ r = .fault f := by
  cases r <;> simp [resultForgetBytes, andThen]

/-- But for the bytes of the buffers, the answer does not depend on the bytes of the buffers. -/
def IgnoresBytes (run : State → Result) : Prop :=
  ∀ s : State, resultForgetBytes (run s) = resultForgetBytes (run s.forgetBytes)

theorem IgnoresBytes.congr {run : State → Result} (hrun : IgnoresBytes run) {s s' : State}
    (h : s.forgetBytes = s'.forgetBytes) : resultForgetBytes (run s) = resultForgetBytes (run s') := by
  rw [hrun s, h, ← hrun s']

theorem resultForgetBytes_andThen {run : State → Result} (hrun : IgnoresBytes run) (r : Result) :
    resultForgetBytes (andThen r run) = resultForgetBytes (andThen (resultForgetBytes r) run) := by
  cases r with
  | next s => exact hrun s
  | fault f => rfl
  | refused f => rfl

theorem IgnoresBytes.andThen {first second : State → Result} (hfirst : IgnoresBytes first)
    (hsecond : IgnoresBytes second) : IgnoresBytes fun s => andThen (first s) second := by
  intro s
  calc resultForgetBytes (Machine.andThen (first s) second)
      = resultForgetBytes (Machine.andThen (resultForgetBytes (first s)) second) :=
        resultForgetBytes_andThen hsecond _
    _ = resultForgetBytes (Machine.andThen (resultForgetBytes (first s.forgetBytes)) second) := by rw [hfirst]
    _ = resultForgetBytes (Machine.andThen (first s.forgetBytes) second) :=
        (resultForgetBytes_andThen hsecond _).symm

theorem resultForgetBytes_withStorage (site : Site) (s : State) (k : Nat → Result) :
    resultForgetBytes (withStorage site s k) = withStorage site s fun h => resultForgetBytes (k h) := by
  unfold withStorage
  split <;> rfl

theorem resultForgetBytes_checkRange (site : Site) (buffer : Buffer) (base n size reported : Nat) (k : Result) :
    resultForgetBytes (checkRange site buffer base n size reported k) =
      checkRange site buffer base n size reported (resultForgetBytes k) := by
  unfold checkRange
  split <;> rfl

/-! ## The branches that read or write bytes -/

theorem eraseBranch_ignoresBytes : IgnoresBytes eraseBranch := by
  intro s
  simp only [eraseBranch, resultForgetBytes_withStorage, resultForgetBytes_checkRange, resultForgetBytes_next,
    State.forgetBytes_emitSave, State.forgetBytes_writeStore]
  rfl

theorem writeBranch_ignoresBytes : IgnoresBytes writeBranch := by
  intro s
  simp only [writeBranch, resultForgetBytes_withStorage, resultForgetBytes_checkRange, resultForgetBytes_next,
    State.forgetBytes_emitSave, State.forgetBytes_writeStore]
  rfl

theorem executeBranch_ignoresBytes : IgnoresBytes executeBranch := by
  intro s
  have hmode : s.forgetBytes.mode = s.mode := rfl
  cases hs : s.mode with
  | erase => simpa only [executeBranch, hmode, hs] using eraseBranch_ignoresBytes s
  | write => simpa only [executeBranch, hmode, hs] using writeBranch_ignoresBytes s
  | idle | read | status | unknown n => simp only [executeBranch, hmode, hs]; rfl

theorem dmaStatusBranch_ignoresBytes (r : Word) : IgnoresBytes (dmaStatusBranch r) := by
  intro s
  simp only [dmaStatusBranch, resultForgetBytes_checkRange, resultForgetBytes_next, State.forgetBytes_writeRam]
  rfl

theorem dmaReadBranch_ignoresBytes (r f l : Word) : IgnoresBytes (dmaReadBranch r f l) := by
  intro s
  simp only [dmaReadBranch, resultForgetBytes_withStorage, resultForgetBytes_checkRange, resultForgetBytes_next,
    State.forgetBytes_writeRam]
  rfl

theorem dmaToRamBranch_ignoresBytes (r f l : Word) : IgnoresBytes (dmaToRamBranch r f l) := by
  intro s
  have hmode : s.forgetBytes.mode = s.mode := rfl
  cases hs : s.mode with
  | status => simpa only [dmaToRamBranch, hmode, hs] using dmaStatusBranch_ignoresBytes r s
  | read => simpa only [dmaToRamBranch, hmode, hs] using dmaReadBranch_ignoresBytes r f l s
  | idle | erase | write | unknown n => simp only [dmaToRamBranch, hmode, hs]; rfl

theorem dmaFromRamBranch_ignoresBytes (r : Word) : IgnoresBytes (dmaFromRamBranch r) := by
  intro s
  have hmode : s.forgetBytes.mode = s.mode := rfl
  cases hs : s.mode with
  | idle | erase | write | read | status | unknown n => simp only [dmaFromRamBranch, hmode, hs]; rfl

/-! ## Every transaction -/

theorem exec_ignoresBytes_of_command {i : Instr} (hi : isCommand i = true) : IgnoresBytes (exec i) := by
  cases i with
  | execute => exact executeBranch_ignoresBytes.andThen fun _ => rfl
  | eraseSetup | eraseMode | eraseOffset | writeMode | statusMode | readMode => exact fun _ => rfl
  | _ => exact absurd hi (by simp [isCommand])

theorem executeCommand_ignoresBytes (w : Word) : IgnoresBytes (executeCommand w) := by
  intro s
  rw [executeCommand_eq, executeCommand_eq]
  cases hw : decodeCommand w with
  | some i => exact exec_ignoresBytes_of_command (decodeCommand_isCommand hw) s
  | none => rfl

theorem execRegWriteCommand_ignoresBytes (a v m : Word) : IgnoresBytes (execRegWriteCommand a v m) := by
  intro s
  unfold execRegWriteCommand
  split
  · exact executeCommand_ignoresBytes (maskedCommand v m) s
  · rfl

theorem execRegReadStatus_ignoresBytes (a : Word) : IgnoresBytes (execRegReadStatus a) := by
  intro s
  unfold execRegReadStatus
  split <;> rfl

theorem exec_ignoresBytes (i : Instr) : IgnoresBytes (exec i) := by
  cases i with
  | eraseSetup | eraseMode | eraseOffset | writeMode | execute | statusMode | readMode =>
    exact exec_ignoresBytes_of_command rfl
  | regReadStatus a => exact execRegReadStatus_ignoresBytes a
  | regWriteCommand a v m => exact execRegWriteCommand_ignoresBytes a v m
  | dmaToRam r f l => exact (dmaToRamBranch_ignoresBytes r f l).andThen fun _ => rfl
  | dmaFromRam r f l => exact (dmaFromRamBranch_ignoresBytes r).andThen fun _ => rfl
  | regWriteStatus | regReadCommand | initializeStorage | powerOn | format => exact fun _ => rfl

/-- Settles O49: two states that differ in the bytes of RAM alone are one state when the bytes are forgotten. -/
theorem ramBytesReachOnlyBuffers : Obligations.RamBytesReachOnlyBuffers := by
  intro i s m
  have hsame : resultForgetBytes (exec i { s with ram := m }) = resultForgetBytes (exec i s) :=
    (exec_ignoresBytes i).congr rfl
  refine ⟨fun t e => ?completes, fun f e => ?faults⟩
  case completes =>
    rw [e, resultForgetBytes_next] at hsame
    obtain ⟨t', e', hforget⟩ := resultForgetBytes_eq_next.mp hsame
    exact ⟨t', e', State.eq_of_forgetBytes_eq hforget⟩
  case faults => exact resultForgetBytes_eq_fault.mp (hsame.trans (resultForgetBytes_eq_fault.mpr e))

end Sys2Proof.Machine

end

/-! # The events and faults of a transaction (60_exceptions.md)

R120: a transaction takes one branch, and every branch emits one event at the most. R123: EXECUTE and DMA_TO_RAM alone
can fault. That each of them faults where its condition fails is said once for each branch, in the order of R124. -/

section

namespace Sys2Proof.Machine

/-! ## The events of a transaction (R120) -/

/-- The event history of `t` is that of `s`, or that of `s` and one event after it. -/
def AddsAtMostOneEvent (s t : State) : Prop := t.events = s.events ∨ ∃ e, t.events = s.events ++ [e]

theorem executeBranch_addsAtMostOneEvent {s t : State} (e : executeBranch s = .next t) : AddsAtMostOneEvent s t := by
  rcases executeBranch_cases e with ⟨-, rfl⟩ | ⟨-, e⟩ | ⟨-, e⟩ | ⟨n, -, rfl⟩
  · exact .inl rfl
  · obtain ⟨h, -, -, rfl⟩ := eraseBranch_eq_next.mp e
    exact .inr ⟨.save, by rw [State.emitSave_events, State.writeStore_events]⟩
  · obtain ⟨h, -, -, -, rfl⟩ := writeBranch_eq_next.mp e
    exact .inr ⟨.save, by rw [State.emitSave_events, State.writeStore_events]⟩
  · exact .inr ⟨_, State.emitDiag_events s _⟩

theorem dmaToRamBranch_addsAtMostOneEvent {r f l : Word} {s t : State} (e : dmaToRamBranch r f l s = .next t) :
    AddsAtMostOneEvent s t := by
  rcases dmaToRamBranch_cases e with ⟨-, e⟩ | ⟨-, e⟩ | ⟨-, -, rfl⟩
  · obtain ⟨-, rfl⟩ := dmaStatusBranch_eq_next.mp e
    exact .inl (State.writeRam_events ..)
  · obtain ⟨h, -, -, -, rfl⟩ := dmaReadBranch_eq_next.mp e
    exact .inl (State.writeRam_events ..)
  · exact .inr ⟨_, State.emitDiag_events s _⟩

theorem dmaFromRamBranch_addsAtMostOneEvent {r : Word} {s t : State} (e : dmaFromRamBranch r s = .next t) :
    AddsAtMostOneEvent s t := by
  rcases dmaFromRamBranch_cases r s with ⟨-, answer⟩ | ⟨-, answer⟩
  · obtain rfl := Host.Outcome.next.inj (answer.symm.trans e)
    exact .inl rfl
  · obtain rfl := Host.Outcome.next.inj (answer.symm.trans e)
    exact .inr ⟨_, State.emitDiag_events s _⟩

/-- Settles O46: the end of a transaction emits nothing, and its one branch emits one event at the most. -/
theorem atMostOneEvent : Obligations.AtMostOneEvent := by
  intro i s t e
  rcases exec_cases e with ⟨j, -, -, eff⟩ | ⟨-, -, d, rfl⟩
  · cases j with
    | execute =>
      obtain ⟨u, hu, rfl⟩ := eff
      have hbranch : AddsAtMostOneEvent s u := executeBranch_addsAtMostOneEvent hu
      exact hbranch
    | dmaToRam r f l =>
      obtain ⟨u, hu, rfl⟩ := eff
      have hbranch : AddsAtMostOneEvent s u := dmaToRamBranch_addsAtMostOneEvent hu
      exact hbranch
    | dmaFromRam r f l =>
      obtain ⟨u, hu, rfl⟩ := eff
      have hbranch : AddsAtMostOneEvent s u := dmaFromRamBranch_addsAtMostOneEvent hu
      exact hbranch
    | regReadStatus a =>
      rcases eff with rfl | rfl
      · exact .inl rfl
      · exact .inr ⟨_, State.emitDiag_events s _⟩
    | regWriteCommand a v m => exact eff.elim
    | _ =>
      obtain rfl := eff
      exact .inl rfl
  · exact .inr ⟨_, State.emitDiag_events s d⟩

/-! ## The transactions that complete -/

theorem exec_regReadStatus_completes (a : Word) (s : State) : ∃ t, exec (.regReadStatus a) s = .next t := by
  by_cases ha : addressValid a = true
  · exact ⟨_, exec_regReadStatus_of_valid ha s⟩
  · exact ⟨_, exec_regReadStatus_of_invalid ha s⟩

theorem exec_dmaFromRam_completes (r f l : Word) (s : State) : ∃ t, exec (.dmaFromRam r f l) s = .next t := by
  by_cases hm : s.mode = .write
  · exact ⟨_, exec_dmaFromRam_of_write hm r f l⟩
  · exact ⟨_, exec_dmaFromRam_of_mismatch hm r f l⟩

/-- What R107 and R108 ask of the state and the operands is enough for DMA_TO_RAM in every mode. -/
theorem exec_dmaToRam_completes {r f l : Word} {s : State} (hready : s.dmaReady r f l) :
    ∃ t, exec (.dmaToRam r f l) s = .next t := by
  obtain ⟨hstatus, hread⟩ := hready
  by_cases hmStatus : s.mode = .status
  · exact ⟨_, exec_dmaToRam_status hmStatus (hstatus hmStatus) f l⟩
  by_cases hmRead : s.mode = .read
  · obtain ⟨hbound, hsource, htarget⟩ := hread hmRead
    obtain ⟨h, hs⟩ := State.isBound_iff.mp hbound
    exact ⟨_, exec_dmaToRam_read hmRead hs rfl rfl hsource htarget⟩
  · exact ⟨_, exec_dmaToRam_of_mismatch hmStatus hmRead r f l⟩

/-- A command write faults only where the EXECUTE it delivers does. -/
theorem exec_regWriteCommand_completes {a v m : Word} {s : State}
    (hready : carriedOut (.regWriteCommand a v m) = some .execute → s.executeReady) :
    ∃ t, exec (.regWriteCommand a v m) s = .next t := by
  by_cases ha : addressValid a = true
  · cases hd : decodeCommand (maskedCommand v m) with
    | none => exact ⟨_, exec_regWriteCommand_of_unrecognized ha hd s⟩
    | some j =>
      have hcarried : carriedOut (.regWriteCommand a v m) = some j := by rw [carriedOut, if_pos ha, hd]
      rw [exec_regWriteCommand_of_decodeCommand ha hd]
      exact exec_command_completes (decodeCommand_isCommand hd) fun hj => hready (hj ▸ hcarried)
  · exact ⟨_, exec_regWriteCommand_of_invalid ha v m s⟩

/-- A transaction completes unless it carries out an EXECUTE, or is a DMA_TO_RAM, that the state is not ready for. -/
theorem exec_completes {i : Instr} {s : State} (hexecute : carriedOut i = some .execute → s.executeReady)
    (hdma : ∀ r f l, i = .dmaToRam r f l → s.dmaReady r f l) : ∃ t, exec i s = .next t := by
  cases i with
  | eraseSetup | eraseMode | eraseOffset | writeMode | execute | statusMode | readMode =>
    exact exec_command_completes rfl fun hi => hexecute (congrArg carriedOut hi)
  | regReadStatus a => exact exec_regReadStatus_completes a s
  | regWriteCommand a v m => exact exec_regWriteCommand_completes hexecute
  | dmaToRam r f l => exact exec_dmaToRam_completes (hdma r f l rfl)
  | dmaFromRam r f l => exact exec_dmaFromRam_completes r f l s
  | regWriteStatus | regReadCommand | initializeStorage | powerOn | format => exact ⟨_, rfl⟩

/-! ## The transactions that fault (R123), by the first check that fails (R124) -/

theorem eraseBranch_faults {s : State} (hnot : ¬ (s.isBound ∧ s.pageInStore)) : ∃ f, eraseBranch s = .fault f := by
  cases hs : s.storage with
  | unbound => exact ⟨_, eraseBranch_of_unbound hs⟩
  | bound h =>
    have hpage : ¬ s.pageInStore := fun hpage => hnot ⟨State.isBound_iff.mpr ⟨h, hs⟩, hpage⟩
    exact ⟨_, eraseBranch_of_page_outside hs (Nat.lt_of_not_le hpage)⟩

theorem writeBranch_faults {s : State} (hnot : ¬ (s.isBound ∧ s.pageInStore ∧ s.sourceInRam)) :
    ∃ f, writeBranch s = .fault f := by
  cases hs : s.storage with
  | unbound => exact ⟨_, writeBranch_of_unbound hs⟩
  | bound h =>
    by_cases hpage : s.pageInStore
    · have hsource : ¬ s.sourceInRam := fun hsource => hnot ⟨State.isBound_iff.mpr ⟨h, hs⟩, hpage, hsource⟩
      exact ⟨_, writeBranch_of_source_outside hs hpage (Nat.lt_of_not_le hsource)⟩
    · exact ⟨_, writeBranch_of_page_outside hs (Nat.lt_of_not_le hpage)⟩

theorem dmaReadBranch_faults {r f l : Word} {s : State}
    (hnot : ¬ (s.isBound ∧ dmaSource f + dmaCount l ≤ Config.flashramSize ∧ r.toNat + dmaCount l ≤ s.ramSize)) :
    ∃ x, dmaReadBranch r f l s = .fault x := by
  cases hs : s.storage with
  | unbound => exact ⟨_, dmaReadBranch_of_unbound hs r f l⟩
  | bound h =>
    by_cases hsource : dmaSource f + dmaCount l ≤ Config.flashramSize
    · have htarget : ¬ r.toNat + dmaCount l ≤ s.ramSize :=
        fun htarget => hnot ⟨State.isBound_iff.mpr ⟨h, hs⟩, hsource, htarget⟩
      exact ⟨_, dmaReadBranch_of_target_outside hs hsource (Nat.lt_of_not_le htarget)⟩
    · exact ⟨_, dmaReadBranch_of_source_outside hs (Nat.lt_of_not_le hsource) r⟩

theorem exec_execute_faults {s : State} (hnot : ¬ s.executeReady) : ∃ f, exec .execute s = .fault f := by
  rcases not_and_or.mp hnot with herase | hwrite
  · obtain ⟨hm, hnot⟩ := Classical.not_imp.mp herase
    obtain ⟨f, hf⟩ := eraseBranch_faults hnot
    exact ⟨f, exec_execute_of_fault ((executeBranch_of_erase hm).trans hf)⟩
  · obtain ⟨hm, hnot⟩ := Classical.not_imp.mp hwrite
    obtain ⟨f, hf⟩ := writeBranch_faults hnot
    exact ⟨f, exec_execute_of_fault ((executeBranch_of_write hm).trans hf)⟩

theorem exec_dmaToRam_faults {r f l : Word} {s : State} (hnot : ¬ s.dmaReady r f l) :
    ∃ x, exec (.dmaToRam r f l) s = .fault x := by
  rcases not_and_or.mp hnot with hstatus | hread
  · obtain ⟨hm, hout⟩ := Classical.not_imp.mp hstatus
    exact ⟨_, exec_dmaToRam_of_status_outside hm (Nat.lt_of_not_le hout) f l⟩
  · obtain ⟨hm, hnot⟩ := Classical.not_imp.mp hread
    obtain ⟨x, hx⟩ := dmaReadBranch_faults hnot
    exact ⟨x, exec_dmaToRam_of_fault ((dmaToRamBranch_of_read hm r f l).trans hx)⟩

/-- A transaction does, faults included, what the operation it carries out does. -/
theorem exec_of_carriedOut {i j : Instr} (h : carriedOut i = some j) (s : State) : exec i s = exec j s := by
  cases i with
  | regWriteCommand a v m =>
    rw [carriedOut] at h
    split at h
    · next ha => exact exec_regWriteCommand_of_decodeCommand ha h s
    · cases h
  | _ =>
    obtain rfl := Option.some.inj h
    rfl

/-- Settles O50: the two operations that can fault do so exactly where their conditions fail. -/
theorem completesUnlessListedFault : Obligations.CompletesUnlessListedFault := by
  intro i s
  refine ⟨fun ⟨hexecute, hdma⟩ => exec_completes hexecute hdma, fun hnot => ?_⟩
  rcases not_and_or.mp hnot with hexecute | hdma
  · obtain ⟨hi, hnotReady⟩ := Classical.not_imp.mp hexecute
    rw [exec_of_carriedOut hi]
    exact exec_execute_faults hnotReady
  · push Not at hdma
    obtain ⟨r, f, l, rfl, hnotReady⟩ := hdma
    exact exec_dmaToRam_faults hnotReady

end Sys2Proof.Machine

end

/-! # Reset, lifecycle and hazards (70_reset_and_hazards.md)

The lifecycle transactions write named fields, or one whole buffer, whose bytes the laws of the block operations give.
A Save comes from an EXECUTE in Erase or Write mode and from nothing else (`exec_saves_iff`). The sequences are composed
of the states that their parts leave. -/

section

namespace Sys2Proof.Machine

/-! ## INITIALIZE and POWER_ON (R132 to R135) -/

theorem exec_initializeStorage (s : State) (h : Nat) :
    exec (.initializeStorage h) s = .next { s with storage := .bound h, returned := none } := rfl

theorem exec_powerOn (s : State) : exec .powerOn s = .next { s with
    mode := .idle, status := 0#64, eraseOffset := 0#32, writePointer := 0#32, returned := none } := rfl

/-- Settles O34: the one field the meaning writes. -/
theorem initializeBindsHandle : Obligations.InitializeBindsHandle := exec_initializeStorage

/-- Settles O35: the four fields the meaning writes. -/
theorem powerOnResetsFourFields : Obligations.PowerOnResetsFourFields := exec_powerOn

/-- Settles O36: POWER_ON writes constants, to fields that INITIALIZE does not write. -/
theorem powerOnIdempotentAndIndependent : Obligations.PowerOnIdempotentAndIndependent := by
  refine ⟨fun s => ?idempotent, fun s h => ?commutes, fun s s' t t' e e' => ?independent⟩
  case idempotent =>
    exact (execAll_cons _ (exec_powerOn s)).trans (execAll_cons [] (exec_powerOn _))
  case commutes =>
    calc execAll [.powerOn, .initializeStorage h] s
        = .next { s with
            mode := .idle, status := 0#64, eraseOffset := 0#32, writePointer := 0#32, storage := .bound h,
            returned := none } :=
          (execAll_cons _ (exec_powerOn s)).trans (execAll_cons [] (exec_initializeStorage _ h))
      _ = execAll [.initializeStorage h, .powerOn] s :=
          ((execAll_cons _ (exec_initializeStorage s h)).trans (execAll_cons [] (exec_powerOn _))).symm
  case independent =>
    obtain rfl := Host.Outcome.next.inj ((exec_powerOn s).symm.trans e)
    obtain rfl := Host.Outcome.next.inj ((exec_powerOn s').symm.trans e')
    exact ⟨rfl, rfl, rfl, rfl⟩

/-- Settles O38: the free fields of the cold state are the four that POWER_ON writes. -/
theorem resetIsPowerOnFromCold : Obligations.ResetIsPowerOnFromCold :=
  ⟨rfl, rfl, rfl, rfl, rfl, exec_powerOn State.cold⟩

/-! ## Whole buffers: FORMAT and the launch argument (R136, R137) -/

/-- The addresses of a buffer are those of its physical bytes. -/
theorem mem_buffer_iff {h a : Nat} :
    bufferAddress h 0 ≤ a ∧ a < bufferAddress h 0 + Config.flashramSize ↔ ∃ p < 0x20000, a = bufferAddress h p := by
  simp only [bufferAddress, Config.flashramSize]
  constructor
  · exact fun ⟨hlo, hhi⟩ => ⟨a - h * 0x20000, by omega, by omega⟩
  · rintro ⟨p, hp, rfl⟩
    omega

theorem not_mem_buffer {h a : Nat} (ha : ∀ p < 0x20000, a ≠ bufferAddress h p) :
    ¬ (bufferAddress h 0 ≤ a ∧ a < bufferAddress h 0 + Config.flashramSize) := by
  rw [mem_buffer_iff]
  exact fun ⟨p, hp, hap⟩ => ha p hp hap

theorem exec_format (s : State) (b : Nat) :
    exec (.format b) s = .next { s with store := (s.formatBuffer b).store, returned := none } := rfl

/-- Settles O37: the law of the formatted buffer, inside it and outside. -/
theorem formatFillsBuffer : Obligations.FormatFillsBuffer := by
  intro s b
  refine ⟨_, exec_format s b, fun p hp => ?inside, fun a ha => ?outside⟩
  case inside =>
    rw [State.formatBuffer_read, if_pos (mem_buffer_iff.mpr ⟨p, hp, rfl⟩), fillByte]
  case outside =>
    rw [State.formatBuffer_read, if_neg (not_mem_buffer ha)]

/-- Physical byte `p` of a buffer loaded with an artifact that reaches it. -/
theorem State.loadArtifact_getElem? (s : State) (h : Nat) {artifact : List Byte} {p : Nat} (hp : p < 0x20000)
    (hlength : p < artifact.length) :
    artifact[p]? = some (Memory.read storeUnlisted (s.loadArtifact h artifact).store (bufferAddress h p)) := by
  have hindex : bufferAddress h p - bufferAddress h 0 = p := by
    simp only [bufferAddress]
    omega
  rw [State.loadArtifact_read, if_pos (mem_buffer_iff.mpr ⟨p, hp, rfl⟩), hindex, List.getD_eq_getElem _ _ hlength,
    List.getElem?_eq_getElem hlength]

/-- Settles O60: the launch loads the one buffer, and the set-up of R138 writes no byte. -/
theorem launchArgumentIsInitialStore : Obligations.LaunchArgumentIsInitialStore := by
  intro s h artifact hlength
  refine ⟨(s.loadArtifact h artifact).store, ?setup, fun p hp => ?inside, fun a ha => ?outside,
    State.loadArtifact_wf h artifact⟩
  case setup =>
    rw [State.launch_eq, State.launch_cons, State.launch_nil]
    exact (execAll_cons _ (exec_initializeStorage _ h)).trans (execAll_cons [] (exec_powerOn _))
  case inside => exact s.loadArtifact_getElem? h hp (hlength ▸ hp)
  case outside => rw [State.loadArtifact_read, if_neg (not_mem_buffer ha)]

/-! ## The writers of the backing memory (R150) -/

/-- The event history of `t` is that of `s`, or that of `s` and one diagnostic after it. -/
def AddsNoSave (s t : State) : Prop := t.events = s.events ∨ ∃ d, t.events = s.events ++ [.diag d]

theorem AddsNoSave.events_ne {s t : State} (h : AddsNoSave s t) : t.events ≠ s.events ++ [.save] := by
  rcases h with h | ⟨d, h⟩ <;> simp [h]

/-- The branch of EXECUTE emits a Save exactly in the two modes that write the backing memory (20_memory.md R40). -/
theorem executeBranch_saves_iff {s t : State} (e : executeBranch s = .next t) :
    t.events = s.events ++ [.save] ↔ s.mode = .erase ∨ s.mode = .write := by
  rcases executeBranch_cases e with ⟨hm, rfl⟩ | ⟨hm, e⟩ | ⟨hm, e⟩ | ⟨n, hm, rfl⟩
  · rcases hm with hm | hm | hm <;> simp [hm]
  · obtain ⟨h, -, -, rfl⟩ := eraseBranch_eq_next.mp e
    simp only [hm, State.emitSave_events, State.writeStore_events, true_or]
  · obtain ⟨h, -, -, -, rfl⟩ := writeBranch_eq_next.mp e
    simp only [hm, State.emitSave_events, State.writeStore_events, or_true]
  · simp [hm]

theorem dmaToRamBranch_addsNoSave {r f l : Word} {s t : State} (e : dmaToRamBranch r f l s = .next t) :
    AddsNoSave s t := by
  rcases dmaToRamBranch_cases e with ⟨-, e⟩ | ⟨-, e⟩ | ⟨-, -, rfl⟩
  · obtain ⟨-, rfl⟩ := dmaStatusBranch_eq_next.mp e
    exact .inl (State.writeRam_events ..)
  · obtain ⟨h, -, -, -, rfl⟩ := dmaReadBranch_eq_next.mp e
    exact .inl (State.writeRam_events ..)
  · exact .inr ⟨_, State.emitDiag_events s _⟩

theorem dmaFromRamBranch_addsNoSave {r : Word} {s t : State} (e : dmaFromRamBranch r s = .next t) :
    AddsNoSave s t := by
  rcases dmaFromRamBranch_cases r s with ⟨-, answer⟩ | ⟨-, answer⟩
  · obtain rfl := Host.Outcome.next.inj (answer.symm.trans e)
    exact .inl rfl
  · obtain rfl := Host.Outcome.next.inj (answer.symm.trans e)
    exact .inr ⟨_, State.emitDiag_events s _⟩

/-- A transaction that carries out no EXECUTE emits nothing or one diagnostic. -/
theorem exec_addsNoSave {i : Instr} {s t : State} (hi : carriedOut i ≠ some .execute) (e : exec i s = .next t) :
    AddsNoSave s t := by
  rcases exec_cases e with ⟨j, hj, -, eff⟩ | ⟨-, -, d, rfl⟩
  · cases j with
    | execute => exact absurd hj hi
    | dmaToRam r f l =>
      obtain ⟨u, hu, rfl⟩ := eff
      have hbranch : AddsNoSave s u := dmaToRamBranch_addsNoSave hu
      exact hbranch
    | dmaFromRam r f l =>
      obtain ⟨u, hu, rfl⟩ := eff
      have hbranch : AddsNoSave s u := dmaFromRamBranch_addsNoSave hu
      exact hbranch
    | regReadStatus a =>
      rcases eff with rfl | rfl
      · exact .inl rfl
      · exact .inr ⟨_, State.emitDiag_events s _⟩
    | regWriteCommand a v m => exact eff.elim
    | _ =>
      obtain rfl := eff
      exact .inl rfl
  · exact .inr ⟨_, State.emitDiag_events s d⟩

/-- A transaction emits a Save exactly when it carries out EXECUTE in Erase or Write mode. -/
theorem exec_saves_iff {i : Instr} {s t : State} (e : exec i s = .next t) :
    t.events = s.events ++ [.save] ↔ carriedOut i = some .execute ∧ (s.mode = .erase ∨ s.mode = .write) := by
  by_cases hi : carriedOut i = some .execute
  · rw [exec_of_carriedOut hi] at e
    obtain ⟨u, hu, rfl⟩ := execExecute_eq_next.mp e
    rw [and_iff_right hi]
    have hbranch : u.events = s.events ++ [.save] ↔ s.mode = .erase ∨ s.mode = .write := executeBranch_saves_iff hu
    exact hbranch
  · have hnone := (exec_addsNoSave hi e).events_ne
    simp only [hi, hnone, false_and]

/-- Settles O47: of the effects on the buffers two write the backing memory, the page of an EXECUTE that saves and
FORMAT, which emits nothing. -/
theorem storeChangesOnlyWithSave : Obligations.StoreChangesOnlyWithSave := by
  intro i s t e
  refine ⟨?_, (exec_saves_iff e).mp⟩
  cases exec_bufferEffect e with
  | untouched hstore _ => exact .inl hstore
  | page hcarried hmode _ _ => exact .inr (.inl ⟨hcarried, hmode, (exec_saves_iff e).mpr ⟨hcarried, hmode⟩⟩)
  | format b hinstr _ _ =>
    subst hinstr
    obtain rfl := Host.Outcome.next.inj ((exec_format s b).symm.trans e)
    exact .inr (.inr ⟨b, rfl, rfl⟩)
  | dma _ _ _ hstore => exact .inl hstore

/-! ## Hazards of the mode (R140, R142) -/

/-- Settles O55: EXECUTE leaves Idle, in which a DMA_TO_RAM is a mismatch. -/
theorem dmaAfterExecuteMovesNothing : Obligations.DmaAfterExecuteMovesNothing := by
  intro s t r f l e
  have hidle : t.mode = .idle := by rw [executeAlwaysEndsIdle s t e]
  rw [← hidle]
  exact exec_dmaToRam_of_mismatch (by simp [hidle]) (by simp [hidle]) r f l

/-- ERASE_OFFSET and EXECUTE leave what ERASE_PAGE leaves, but for the latch (R85). -/
theorem execAll_eraseOffset_execute {s : State} {h : Nat} {page : BitVec 16} (hs : s.storage = .bound h)
    (hpage : page.toNat < 1024) :
    execAll [.eraseOffset page, .execute] s = .next ((s.pageErased h page).setStatus statusErasePending) := by
  have herase := exec_execute_erase
    (s := { s with eraseOffset := pageOffset page, mode := .erase, status := statusErasePending, returned := none })
    rfl hs (pageOffset_toNat page) (by omega)
  refine (execAll_cons _ rfl).trans ((execAll_cons [] herase).trans ?_)
  simp only [execAll, State.pageErased, State.setStatus, State.writeStore_store]

/-- Settles O56: ERASE_OFFSET leaves Write mode for Erase mode, in which the EXECUTE erases the page it names. -/
theorem eraseOffsetCancelsProgram : Obligations.EraseOffsetCancelsProgram := by
  intro s h page _ hs hpage
  refine ⟨_, execAll_eraseOffset_execute hs hpage, rfl, rfl, rfl, fun l _ => ?_⟩
  rw [State.storeLogical_congr (State.setStatus_store _ _), State.pageErased_storeLogical, fillByte]

/-! ## The round trip (R146, R147) -/

/-- The state after PROGRAM_PAGE from RAM base `w` (30_encoding.md R76), handle `h` being bound. -/
def State.pageProgrammed (s : State) (h : Nat) (page : BitVec 16) (w : Word) : State :=
  { s with
    eraseOffset := pageOffset page, writePointer := w, mode := .idle,
    store := (s.writeStore h (page.toNat * 128) 128 fun i => s.ramLogical (w.toNat + i)).store,
    events := s.events ++ [.save], returned := none }

theorem State.pageProgrammed_storeLogical (s : State) (h : Nat) (page : BitVec 16) (w : Word) (l : Nat) :
    (s.pageProgrammed h page w).storeLogical h l =
      if page.toNat * 128 ≤ l ∧ l < page.toNat * 128 + 128 then s.ramLogical (w.toNat + (l - page.toNat * 128))
      else s.storeLogical h l :=
  calc (s.pageProgrammed h page w).storeLogical h l
      = (s.writeStore h (page.toNat * 128) 128 fun i => s.ramLogical (w.toNat + i)).storeLogical h l :=
        State.storeLogical_congr (by rw [State.pageProgrammed]) h l
    _ = _ := s.writeStore_logical h (page.toNat * 128) 128 (fun i => s.ramLogical (w.toNat + i)) l

theorem State.pageProgrammed_ramLogical (s : State) (h : Nat) (page : BitVec 16) (w : Word) (l : Nat) :
    (s.pageProgrammed h page w).ramLogical l = s.ramLogical l :=
  State.ramLogical_congr rfl l

theorem execAll_programPage {s : State} {h : Nat} {page : BitVec 16} {w : Word} (g : Word) (hs : s.storage = .bound h)
    (hpage : page.toNat < 1024) (hw : w.toNat + 128 ≤ s.ramSize) :
    execAll [.eraseSetup page, .writeMode, .dmaFromRam w g 0x7F#32, .execute] s =
      .next (s.pageProgrammed h page w) := by
  have hlatch := exec_dmaFromRam_of_write
    (s := { s with eraseOffset := pageOffset page, mode := .write, returned := none }) rfl w g 0x7F#32
  have hinside : (pageOffset page).toNat + 128 ≤ 0x20000 := by
    rw [pageOffset_toNat]
    omega
  have hexecute := exec_execute_write
    (s := { s with
      eraseOffset := pageOffset page, mode := .write, writePointer := w, returned := some Config.dmaCost })
    rfl hs hinside hw
  simp only [pageOffset_toNat] at hexecute
  exact (execAll_cons _ rfl).trans ((execAll_cons _ rfl).trans ((execAll_cons _ hlatch).trans
    (execAll_cons [] hexecute)))

/-- Settles O58: what the program writes to the page is what RAM held at `w`, and the read copies the page to RAM. -/
theorem programThenReadRoundTrip : Obligations.ProgramThenReadRoundTrip := by
  intro s h page w r f g hs hpage hw hr hf
  have hprogram := execAll_programPage g hs hpage hw
  have hread := execAll_readPage (s := s.pageProgrammed h page w) hs hpage hr hf
  refine ⟨_, (execAll_append _ hprogram).trans hread, fun l => ?ram, fun l _ => ?store, rfl, rfl, rfl⟩
  case ram =>
    rw [State.pageRead_ramLogical, State.pageProgrammed_ramLogical]
    split
    · rw [State.pageProgrammed_storeLogical, if_pos (by omega), Nat.add_sub_cancel_left]
    · rfl
  case store => rw [State.pageRead_storeLogical, State.pageProgrammed_storeLogical]

end Sys2Proof.Machine

end
